-- ==== Sys2Proof/Word.lean ====
section
/-! DEFINITION. The word types of the EKey block: a byte, the 16-bit checksum and block address, and the byte
sequences of fixed length (a Key, a Response, a vector, a record, the receive buffer). `00_scope.md` R9. -/

namespace Sys2Proof

/-- A byte: an unsigned integer `0..255`, bit 7 the most significant (R9). -/
abbrev Byte := BitVec 8

/-- A 16-bit value: a checksum (R90) or a block address (R130). -/
abbrev Word := BitVec 16

/-- A byte sequence of the fixed length `n` (R9). -/
abbrev Bytes (n : Nat) := Vector Byte n

/-- A Key, a Response or a permutation vector: 256 bytes (R6, R12). -/
abbrev Key := Bytes 256

/-- A record of the Block Store: 1024 bytes (R6, R22). -/
abbrev Record := Bytes 1024

end Sys2Proof
end

