-- ==== Sys2Proof/Config.lean ====
section
/-! DEFINITION. The parameters the source leaves open (`00_scope.md` R7), as one record a model takes as an argument,
and the free values of the model: constants with no body, of which nothing can be proved. -/

namespace Sys2Proof

/-- The parameter record `CRC` of R90 and R91. -/
structure CrcParams where
  poly   : Word
  init   : Word
  refin  : Bool
  refout : Bool
  xorout : Word
  deriving DecidableEq, Repr

/-- `BLOCK_ADDR_ORDER` of R55. -/
inductive ByteOrder where
  | big
  | little
  deriving DecidableEq, Repr

/-- What a parameter such as `NOTFOUND_REPLY` or `OPERAND_FAIL_REPLY` selects (R7): a NAK packet, or silence. -/
inductive FailReply where
  | nak
  | silent
  deriving DecidableEq, Repr

/-- The parameters of R7. They are fixed for a machine; `State.cfg` holds them, so that every statement ranges over
every value of them (log entry 1). -/
structure Config where
  crc              : CrcParams
  ack              : Byte
  nak              : Byte
  opStatus         : Option Byte
  blockAddrOrder   : ByteOrder
  notFoundReply    : FailReply
  operandFailReply : FailReply
  deriving DecidableEq, Repr

/-- FREE VALUE (R150, U21; log entry 8): the `n`-th byte the random source gives. -/
opaque Config.randomByte : Nat → BitVec 8

/-- FREE VALUE (R114, U6; log entry 6): the rank that the `n`-th free choice gives a slot among slots whose keys
compare `Eq`. -/
opaque Config.tieRank : Nat → Nat → Nat

/-- FREE VALUE (R115, R117, U7; log entry 7): which of several matching slots the `n`-th free choice picks. -/
opaque Config.findPick : Nat → Nat

/-- FREE VALUE (R98, N6; log entry 3): how many ms after the bound the `n`-th silence of the link is noticed. -/
opaque Config.silenceLag : Nat → Nat

end Sys2Proof
end

