-- ==== Sys2Proof/Syntax.lean ====
section
/-! DEFINITION. The commands of the EKey block, one constructor per row of `spec/opcode_table.json`
(`30_encoding.md` R73, R74, R78). A command is what the FIRST packet of a transaction says; the operand packet of
`prime`, `write`, `get` and `put` is received while the command runs (`43_dispatcher.md` R146), because its
failure is part of the command's meaning (R155). The operand layouts are in `Machine/Operands.lean`. -/

namespace Sys2Proof

/-- The commands. -/
inductive Instr where
  /-- `lookup` (R144): the whole 256-byte payload of the first packet is the pattern. -/
  | lookup (pattern : Key)
  /-- `prime` 0x11 (R147): import a permutation vector. -/
  | prime
  /-- `write` 0x22 (R148): write one key and response pair. -/
  | write
  /-- `erase` 0x33 (R149): zero the key store. -/
  | erase
  /-- `noise` 0x44 (R150): emit random bytes. -/
  | noise
  /-- `get` 0x55 (R151): read a record. -/
  | get
  /-- `put` 0x66 (R152): write a record. -/
  | put
  /-- `status` (R153), the opcode byte `OP_STATUS` when that parameter is a byte. -/
  | status
  /-- Any other opcode byte (R154). -/
  | reserved (op : Byte)
  deriving DecidableEq, Repr

end Sys2Proof
end

