-- ==== Sys2Proof/WellFormed.lean ====
section
/-! DEFINITION. Which parameter records and which commands are well formed: the constraints of `00_scope.md` R7,
and the exclusions of `30_encoding.md` R78 and R83. -/

namespace Sys2Proof

/-- The six numeric opcodes of R6. -/
def sixOpcodes : List Byte := [0x11, 0x22, 0x33, 0x44, 0x55, 0x66]

/-- The constraints of R7: `poly` is odd, `ACK ≠ NAK`, and `OP_STATUS` is not one of the six opcodes. -/
def Config.wf (c : Config) : Bool :=
  c.crc.poly.getLsbD 0 && c.ack != c.nak && !(c.opStatus.any fun b => sixOpcodes.contains b)

/-- A command that can be issued under the parameters `c`: `status` only when `OP_STATUS` is a byte (R83), and a
reserved byte is none of the six and not `OP_STATUS` (R78). Every other term is well formed: the type admits only
256-byte patterns. -/
def Instr.wf (c : Config) : Instr → Bool
  | .status => c.opStatus.isSome
  | .reserved op => !sixOpcodes.contains op && c.opStatus != some op
  | .lookup _ => true
  | .prime => true
  | .write => true
  | .erase => true
  | .noise => true
  | .get => true
  | .put => true

end Sys2Proof
end

