-- ==== Sys2Proof/Decode.lean ====
section
/-! DEFINITION. From the payload of a first packet to a command and back (`30_encoding.md` R73, R74, R78, R83;
`43_dispatcher.md` R143, R145), with the default parameters of `00_scope.md` R7 and the helpers that cut byte
sequences to a length. -/

namespace Sys2Proof

/-- The first `n` bytes of `l`, with `0x00` where `l` is shorter. Every caller gives a list of at least `n` bytes. -/
def toBytes (n : Nat) (l : List Byte) : Bytes n := ⟨(l.takeD n 0).toArray, by simp⟩

/-- The default parameters of R7, which `95_test_vectors.md` uses. -/
def defaultConfig : Config :=
  { crc := { poly := 0x1021, init := 0xFFFF, refin := false, refout := false, xorout := 0x0000 }
    ack := 0x06, nak := 0x15, opStatus := none, blockAddrOrder := .big
    notFoundReply := .nak, operandFailReply := .nak }

/-- Why a payload is no command. -/
inductive DecodeError where
  /-- The payload is neither 256 bytes nor 1 byte long (R73); `Receive(256, 1)` accepts no such packet (R93). -/
  | length (n : Nat)
  deriving DecidableEq, Repr

/-- The dispatch on the opcode byte, R145. -/
def decodeOpcode (c : Config) (op : Byte) : Instr :=
  if op = 0x11 then .prime
  else if op = 0x22 then .write
  else if op = 0x33 then .erase
  else if op = 0x44 then .noise
  else if op = 0x55 then .get
  else if op = 0x66 then .put
  else if c.opStatus = some op then .status
  else .reserved op

/-- The classification of the first packet by its payload length alone (R73, R143), then R145. -/
def decode (c : Config) (payload : List Byte) : Except DecodeError Instr :=
  if payload.length = 256 then .ok (.lookup (toBytes 256 payload))
  else match payload with
    | [op] => .ok (decodeOpcode c op)
    | _ => .error (.length payload.length)

/-- The payload of the first packet of a command (R74, R84). For `status` with `OP_STATUS = none` there is none:
the command cannot be issued (R83), and the term is not well formed. -/
def encode (c : Config) : Instr → List Byte
  | .lookup pattern => pattern.toList
  | .prime => [0x11]
  | .write => [0x22]
  | .erase => [0x33]
  | .noise => [0x44]
  | .get => [0x55]
  | .put => [0x66]
  | .status => c.opStatus.toList
  | .reserved op => [op]

/-- The payload length of the operand packet a command reads, where it reads one (R75). -/
def operandLength : Instr → Option Nat
  | .prime => some 256
  | .write => some 513
  | .get => some 2
  | .put => some 1026
  | .lookup _ => none
  | .erase => none
  | .noise => none
  | .status => none
  | .reserved _ => none

/-- The first packet's payload that a table word stands for (log entry 16): up to 8 bits are an opcode byte; the one
row without opcode bits (`lookup`, mask 0) and every longer word are a 256-byte pattern, byte `j` in bits
`8 * j + 7` to `8 * j`. -/
def tablePayload (nbits w : Nat) : List Byte :=
  if 1 ≤ nbits ∧ nbits ≤ 8 then [BitVec.ofNat 8 w]
  else (List.range 256).map fun j => BitVec.ofNat 8 (w >>> (8 * j))

/-- The host's question: the command the decoder reads from a table word, under the default parameters. -/
def decodeTableWord (nbits w : Nat) : Option Instr :=
  match decode defaultConfig (tablePayload nbits w) with
  | .ok i => some i
  | .error _ => none

end Sys2Proof
end

