-- ==== Sys2Proof/Machine/State.lean ====
section
/-! DEFINITION. The state of the EKey block and of the storage it commands (`10_state.md` R20 to R31, R34, R35), its
parameters (`00_scope.md` R7), the environment as plain data (R8, R10), and the reset values (`10_state.md` R39). -/

namespace Sys2Proof.Machine

/-- Bytes at addresses, addresses strictly rising, no entry equal to what an unlisted address reads as
(`Memory.wf` in `Machine/Ops.lean`). -/
abbrev Memory := List Host.Cell

/-- What one call of `DecPoll` answers (R10, R71). `eof` and `byte` are also the symbols of an outgoing frame. -/
inductive LinkAns where
  | noData
  | byte (b : Byte)
  | eof
  | err
  deriving DecidableEq, Repr

/-- One coming answer of `DecPoll`, and how many ms pass before the block makes that call (log entries 2, 3). -/
structure LinkEvent where
  dt  : Nat
  ans : LinkAns
  deriving DecidableEq, Repr

/-- The decoding layer's error and position state (R34 (2), R35 (1)). Its content is opaque (N2): only whether it is
cleared, has consumed symbols, or has flagged a decode error. -/
inductive DecLayer where
  | cleared
  | inUse
  | errorFlagged
  deriving DecidableEq, Repr

/-- The states of the command loop (R29). -/
inductive DState where
  | idle
  | awaitingPacket
  | lookup
  | awaitingOperand
  deriving DecidableEq, Repr

/-- The five causes that abort a frame (R11, R100). -/
inductive Cause where
  | timeout
  | length
  | crc
  | decode
  | overrun
  deriving DecidableEq, Repr

/-- The result of a `Receive` (R11). -/
inductive RxResult where
  | noFrame
  | fail (c : Cause)
  | ok (n : Nat)
  deriving DecidableEq, Repr

/-- The results a transaction leaves in `OP_ERR` (R31, R172). -/
inductive OpErr where
  | opOk
  | opUnknown
  | opOperand
  | opAddress
  | opBadPerm
  | opNotFound
  deriving DecidableEq, Repr

/-- The result of a `Find` (R11). -/
inductive FindResult where
  | found (slot : Byte)
  | notFound
  deriving DecidableEq, Repr

/-- The result of a `SetPermutation` (R119). -/
inductive PermResult where
  | accepted
  | rejected
  deriving DecidableEq, Repr

/-- One call of the block on a collaborator that R13 counts among its outputs. -/
inductive Call where
  | encByte (b : Byte)
  | encEof
  | decClear
  | keySet (slot : Byte) (key response : Key)
  | blkSet (addr : Word) (record : Record)
  deriving DecidableEq, Repr

/-- The state. The first twelve fields after `cfg` are the spec's; `cfg` is the parameters; the last five are the
environment and the model's own bookkeeping (log entries 1 to 8). -/
structure State where
  /-- The parameters of R7 (log entry 1); no step changes them. -/
  cfg        : Config
  /-- `KEYSTORE` (R21): Key byte `j` of slot `a` at `512 * a + j`, Response byte `j` at `512 * a + 256 + j`. -/
  keystore   : Memory
  /-- `BLOCKSTORE` (R22): byte `j` of record `a` at `1024 * a + j`. -/
  blockstore : Memory
  /-- `PERM` (R23). -/
  perm       : Bytes 256
  /-- `SIDX` (R24). -/
  sidx       : Bytes 256
  /-- `RXBUF` (R25). -/
  rxbuf      : Bytes 1028
  /-- `RXCNT` (R26). -/
  rxcnt      : Nat
  /-- `TLAST` (R27). -/
  tlast      : Nat
  /-- `TXCRC` (R28). -/
  txcrc      : Word
  /-- `DSTATE` (R29). -/
  dstate     : DState
  /-- `CUROP` (R30). -/
  curop      : Byte
  /-- `STATUS` (R31). -/
  status     : Byte
  /-- The decoding layer's error and position state (R35 (1), R39). -/
  decLayer   : DecLayer
  /-- What the coming `DecPoll` calls answer; after the last the link is silent (log entry 2). -/
  link       : List LinkEvent
  /-- What `NowMs` reads (R10; log entry 3). -/
  now        : Nat
  /-- How many bytes the random source has given (R35 (4); log entry 8). -/
  rng        : Nat
  /-- How many free choices have been made: the model's own counter (log entries 3, 6, 7). -/
  draws      : Nat
  /-- The output calls made so far, oldest first (R13; log entry 4). -/
  calls      : List Call
  deriving DecidableEq, Repr

/-- Why the machine stops. R160: no failure stops the loop, so no step raises one. -/
inductive Fault where
  /-- Raised by `step` alone, if the `Receive(256, 1)` of a loop pass answered `Ok(n)` with a payload that is no
  command. R140: such an `n` cannot occur. Safe: the machine would stop where the spec has no behaviour. -/
  | unclassifiedPacket (n : Nat)
  deriving DecidableEq, Repr

/-- Why an instruction has no meaning here. -/
inductive Refusal where
  /-- Raised by `exec` for a command without a meaning yet; no command is in that case. Safe. -/
  | notModelled (mnemonic : String)
  deriving DecidableEq, Repr

/-- The block right after reset (R39, R190), with the parameters of `defaultConfig`, the stores listing nothing, and
the values log entries 9, 10 and 11 name where the spec gives none. -/
def State.reset : State :=
  { cfg        := defaultConfig
    keystore   := []
    blockstore := []
    perm       := Vector.ofFn fun i => BitVec.ofNat 8 i.val
    sidx       := Vector.ofFn fun i => BitVec.ofNat 8 i.val
    rxbuf      := Vector.replicate 1028 0
    rxcnt      := 0
    tlast      := 0
    txcrc      := 0
    dstate     := .idle
    curop      := 0
    status     := 0
    decLayer   := .cleared
    link       := []
    now        := 0
    rng        := 0
    draws      := 0
    calls      := [.decClear] }

end Sys2Proof.Machine
end

