-- ==== Sys2Proof/Machine/Flags.lean ====
section
/-! DEFINITION. The fields of the `STATUS` byte and their codes (`10_state.md` R31, `60_exceptions.md` R171, R172).
The block has no other flags (R34). -/

namespace Sys2Proof.Machine

/-- The code of a link cause (R100, R171). -/
def Cause.code : Cause → BitVec 3
  | .timeout => 1
  | .length => 2
  | .crc => 3
  | .decode => 4
  | .overrun => 5

/-- The code of an operation result (R172). -/
def OpErr.code : OpErr → BitVec 3
  | .opOk => 0
  | .opUnknown => 1
  | .opOperand => 2
  | .opAddress => 3
  | .opBadPerm => 4
  | .opNotFound => 5

/-- `STATUS.OP_ERR`, bits 6:4 (R31). -/
def statusOpErr (status : Byte) : BitVec 3 := status.extractLsb' 4 3

/-- `STATUS.LINK_ERR`, bits 2:0 (R31). -/
def statusLinkErr (status : Byte) : BitVec 3 := status.extractLsb' 0 3

/-- `STATUS` with `OP_ERR` replaced. -/
def withOpErr (status : Byte) (code : BitVec 3) : Byte :=
  (status &&& 0x8F) ||| (code.setWidth 8 <<< 4)

/-- `STATUS` with `LINK_ERR` replaced. -/
def withLinkErr (status : Byte) (code : BitVec 3) : Byte :=
  (status &&& 0xF8) ||| code.setWidth 8

/-- `STATUS.OP_ERR <- e` (R156). -/
def setOpErr (e : OpErr) (s : State) : State := { s with status := withOpErr s.status e.code }

/-- `STATUS.LINK_ERR <- code(cause)` (R100). -/
def setLinkErr (c : Cause) (s : State) : State := { s with status := withLinkErr s.status c.code }

/-- `STATUS.LINK_ERR <- 0` (R153). -/
def clearLinkErr (s : State) : State := { s with status := withLinkErr s.status 0 }

end Sys2Proof.Machine
end

