-- ==== Sys2Proof/Machine/Ops.lean ====
section
/-! DEFINITION. The named operations over memory and registers: the two record stores (`20_memory.md` R50 to R52),
the output calls, and the one way an error is taken and control returns (`40_codec.md` R100, `43_dispatcher.md` R140,
R155; `60_exceptions.md` R177). -/

namespace Sys2Proof.Machine

/-- `T_INACT`, 500 ms (R6). -/
def tInact : Nat := 500

/-- `k n`, with `n` computed first. It changes no value (`demand_eq`); it keeps long loops cheap to evaluate. -/
def demand {α : Type} (n : Nat) (k : Nat → α) : α :=
  match n with
  | 0 => k 0
  | m + 1 => k (m + 1)

/-! ### Memory -/

/-- What a byte reads as that nothing has listed (log entry 9). -/
def Memory.blank : Byte := 0x00

/-- The canonical form: addresses strictly rising, no entry equal to what an unlisted address reads as. -/
def Memory.wf : Memory → Bool
  | [] => true
  | [c] => c.2 != Memory.blank
  | c :: d :: m => c.2 != Memory.blank && decide (c.1 < d.1) && Memory.wf (d :: m)

/-- The byte at an address. -/
def Memory.read : Memory → Nat → Byte
  | [], _ => Memory.blank
  | c :: m, a => if c.1 = a then c.2 else Memory.read m a

/-- The entries that hold the bytes `l` from address `base` on. -/
def Memory.cellsAt : Nat → List Byte → Memory
  | _, [] => []
  | base, b :: l =>
    if b = Memory.blank then Memory.cellsAt (base + 1) l else (base, b) :: Memory.cellsAt (base + 1) l

/-- The memory after the bytes `l` are written from address `base` on: the one write, since an access always moves
one whole record (R56). -/
def Memory.writeRange (m : Memory) (base : Nat) (l : List Byte) : Memory :=
  m.filter (fun c => c.1 < base) ++ (Memory.cellsAt base l ++ m.filter (fun c => base + l.length ≤ c.1))

/-- The entries of the `n` bytes from address `base` on. -/
def Memory.window (m : Memory) (base n : Nat) : Memory :=
  m.filter fun c => base ≤ c.1 && decide (c.1 < base + n)

/-- The `n` bytes from address `base` on (`readRange_getElem`: byte `i` is `read (base + i)`). -/
def Memory.readRange (m : Memory) (base n : Nat) : Bytes n :=
  let w := m.window base n
  Vector.ofFn fun i => w.read (base + i.val)

/-- Where slot `a` of `KEYSTORE` lies (log entry 17): the Key here, the Response 256 bytes on. -/
def slotBase (a : Byte) : Nat := 512 * a.toNat

/-- Where record `a` of `BLOCKSTORE` lies (log entry 17). -/
def recordBase (addr : Word) : Nat := 1024 * addr.toNat

/-- The Key that `KeyGet(a)` returns (R51). -/
def keyAt (s : State) (a : Byte) : Key := s.keystore.readRange (slotBase a) 256

/-- The Response that `KeyGet(a)` returns (R51). -/
def responseAt (s : State) (a : Byte) : Key := s.keystore.readRange (slotBase a + 256) 256

/-- `KeySet(a, K, R)` (R51). -/
def keySet (a : Byte) (key response : Key) (s : State) : State :=
  { s with
    keystore := s.keystore.writeRange (slotBase a) (key.toList ++ response.toList)
    calls := s.calls ++ [.keySet a key response] }

/-- `BlkGet(a)` (R52). -/
def blkGet (s : State) (addr : Word) : Record := s.blockstore.readRange (recordBase addr) 1024

/-- `BlkSet(a, d)` (R52). -/
def blkSet (addr : Word) (d : Record) (s : State) : State :=
  { s with
    blockstore := s.blockstore.writeRange (recordBase addr) d.toList
    calls := s.calls ++ [.blkSet addr d] }

/-! ### Output calls -/

/-- `DecClear()` (R10). -/
def decClear (s : State) : State := { s with decLayer := .cleared, calls := s.calls ++ [.decClear] }

/-! ### Registers -/

/-- `RXBUF[off..off+n)`. -/
def rxSlice (s : State) (off n : Nat) : List Byte := (s.rxbuf.toList.drop off).take n

/-- The 16-bit value of a high and a low byte (R53, R55). -/
def joinBytes (hi lo : Byte) : Word := BitVec.ofNat 16 (hi.toNat * 256 + lo.toNat)

/-- The checksum received behind a payload of `n` bytes: `RXBUF[n] * 256 + RXBUF[n+1]` (R53). -/
def rxChecksum (s : State) (n : Nat) : Word :=
  joinBytes (s.rxbuf.toList.getD n 0) (s.rxbuf.toList.getD (n + 1) 0)

/-- The receive buffer after the bytes `l` have been written to it from index 0 on (R95). -/
def fillRxbuf (old : Bytes 1028) (l : List Byte) : Bytes 1028 := toBytes 1028 (l ++ old.toList.drop l.length)

/-! ### Taking an error, and the return -/

/-- `raise Abort(cause)` inside a `Receive` (R100, R177): the one way an error is taken. Nothing is saved (R177):
`DecClear()`, then `LINK_ERR`, then the result `Fail(cause)`. -/
def raiseAbort (c : Cause) (s : State) : State × RxResult := (setLinkErr c (decClear s), .fail c)

/-- The end of a loop pass, the return from every command and every error (R140, R177, R178). -/
def returnIdle (s : State) : State := { s with dstate := .idle }

/-- What a loop pass does between the acceptance of the first packet and the command itself (R140): `DSTATE <- Lookup`
for a 256-byte payload, `CUROP <- RXBUF[0]` for an opcode. -/
def enterTransaction (n : Nat) (s : State) : State :=
  if n = 256 then { s with dstate := .lookup } else { s with curop := s.rxbuf[0] }

end Sys2Proof.Machine
end

