-- ==== Sys2Proof/Machine/BlockStore.lean ====
section
/-! DEFINITION. The Block Store (`42_block_store.md`): `ReadRecord`, `WriteRecord` and the range test. -/

namespace Sys2Proof.Machine

/-- The range test (R132): `0..31` are legal, and the address is not reduced. -/
def addrLegal (addr : Word) : Bool := decide (addr.toNat ≤ 31)

/-- `ReadRecord(addr)` (R130); `none` is `AddressError`. -/
def readRecord (addr : Word) (s : State) : Option Record :=
  if addrLegal addr then some (blkGet s addr) else none

/-- `WriteRecord(addr, d)` (R131); `none` is `AddressError`, with nothing written. -/
def writeRecord (addr : Word) (d : Record) (s : State) : Option State :=
  if addrLegal addr then some (blkSet addr d s) else none

end Sys2Proof.Machine
end

