-- ==== Sys2Proof/Machine/Codec.lean ====
section
/-! DEFINITION. The Codec (`40_codec.md`): `crc16` (R90), `Receive` (R93 to R100), `Send` (R102), and the wait for an
operand packet built on `Receive` (`43_dispatcher.md` R146). -/

namespace Sys2Proof.Machine

/-! ### The checksum -/

/-- One of the eight bit steps of R90. -/
def crcBit (p : CrcParams) (c : Word) : Word := if c.msb then (c <<< 1) ^^^ p.poly else c <<< 1

/-- One byte of R90: the byte, reflected under `refin`, goes into the high byte of the register, then eight bit
steps. -/
def crcByte (p : CrcParams) (c : Word) (b : Byte) : Word :=
  Nat.repeat (crcBit p) 8 (c ^^^ ((if p.refin then b.reverse else b).setWidth 16 <<< 8))

/-- The register of R90 after the bytes of a payload. -/
def crcLoop (p : CrcParams) : List Byte → Word → Word
  | [], c => c
  | b :: l, c => demand (crcByte p c b).toNat fun n => crcLoop p l (BitVec.ofNat 16 n)

/-- `crc16(p)` (R90). -/
def crc16 (p : CrcParams) (payload : List Byte) : Word :=
  let c := crcLoop p payload p.init
  (if p.refout then c.reverse else c) ^^^ p.xorout

/-- The two checksum bytes in wire order, high byte first (R53). -/
def crcBytes (c : Word) : List Byte := [c.extractLsb' 8 8, c.extractLsb' 0 8]

/-- The bytes of a packet: payload, then checksum (R70). -/
def packet (p : CrcParams) (payload : List Byte) : List Byte := payload ++ crcBytes (crc16 p payload)

/-- The symbols of a frame (R70). -/
def frame (p : CrcParams) (payload : List Byte) : List LinkAns := (packet p payload).map LinkAns.byte ++ [.eof]

/-! ### Receive -/

/-- How the symbols of a frame attempt end. -/
inductive ScanEnd where
  /-- `EOF` arrived (R96). -/
  | eof
  /-- `Err` arrived (R97). -/
  | err
  /-- A byte arrived when `RXCNT = maxTot` (R95). -/
  | overrun
  /-- A poll answered `NoData` with `NowMs() - TLAST ≥ T_INACT` (R98). -/
  | timeout
  /-- The link is silent from here on, so R98 fires at some later poll (log entry 3). -/
  | silence
  deriving DecidableEq, Repr

/-- What the loop of R93 has done when it leaves: the accepted bytes in order, the last acceptance, the clock, the
answers not yet asked for. -/
structure Scan where
  bytes : List Byte
  tlast : Nat
  now   : Nat
  rest  : List LinkEvent
  fin   : ScanEnd
  deriving DecidableEq, Repr

/-- The loop of R93 over the coming answers of `DecPoll`. `cnt` is `RXCNT` and `acc` the accepted bytes, newest
first. -/
def scan (maxTot : Nat) : List LinkEvent → Nat → List Byte → Nat → Nat → Scan
  | [], _, acc, tlast, now => { bytes := acc.reverse, tlast, now, rest := [], fin := .silence }
  | e :: link, cnt, acc, tlast, now =>
    demand (now + e.dt) fun now =>
      match e.ans with
      | .byte b =>                                                          -- R95
        if cnt = maxTot then { bytes := acc.reverse, tlast, now, rest := link, fin := .overrun }
        else demand (cnt + 1) fun cnt => scan maxTot link cnt (b :: acc) now now
      | .eof => { bytes := acc.reverse, tlast, now, rest := link, fin := .eof }      -- R96
      | .err => { bytes := acc.reverse, tlast, now, rest := link, fin := .err }      -- R97
      | .noData =>                                                          -- R98
        if tInact ≤ now - tlast then { bytes := acc.reverse, tlast, now, rest := link, fin := .timeout }
        else scan maxTot link cnt acc tlast now

/-- The decoding layer after the symbols of a frame attempt, before `DecClear` (R34 (2)). -/
def layerAfter : ScanEnd → DecLayer
  | .err => .errorFlagged
  | .eof => .inUse
  | .overrun => .inUse
  | .timeout => .inUse
  | .silence => .inUse

/-- The state after the loop of R93: `RXBUF`, `RXCNT`, `TLAST`, the clock, the symbols consumed. A silence ends at a
poll at or after the bound of R98, how late is a free value (N6). -/
def commitScan (r : Scan) (s : State) : State :=
  let s := { s with
    rxbuf := fillRxbuf s.rxbuf r.bytes, rxcnt := r.bytes.length, tlast := r.tlast, now := r.now, link := r.rest,
    decLayer := layerAfter r.fin }
  if r.fin = .silence then
    { s with now := max s.now (s.tlast + tInact) + Config.silenceLag s.draws, draws := s.draws + 1 }
  else s

/-- `totP`, `totA` and `maxTot` of R93: the candidate totals. -/
def maxTot (lenP lenA : Nat) : Nat := max (lenP + 2) (if lenA = 0 then 0 else lenA + 2)

/-- `EOF` (R96): length first, then checksum; on success `DecClear()` and `Ok(n)` (R99). -/
def acceptFrame (lenP lenA : Nat) (s : State) : State × RxResult :=
  if s.rxcnt ≠ lenP + 2 ∧ (lenA = 0 ∨ s.rxcnt ≠ lenA + 2) then raiseAbort .length s
  else if crc16 s.cfg.crc (rxSlice s 0 (s.rxcnt - 2)) ≠ rxChecksum s (s.rxcnt - 2) then raiseAbort .crc s
  else (decClear s, .ok (s.rxcnt - 2))

/-- The end of a frame attempt, by its cause (R95 to R98). -/
def endReceive (lenP lenA : Nat) (fin : ScanEnd) (s : State) : State × RxResult :=
  match fin with
  | .eof => acceptFrame lenP lenA s
  | .err => raiseAbort .decode s
  | .overrun => raiseAbort .overrun s
  | .timeout => raiseAbort .timeout s
  | .silence => raiseAbort .timeout s

/-- `Receive(lenP, lenA)` (R93), the first poll on an idle link apart (R94). The block issues it with the arguments
of U13 only. -/
def receive (lenP lenA : Nat) (s : State) : State × RxResult :=
  match s.link with
  | [] => ({ s with rxcnt := 0 }, .noFrame)
  | e :: link =>
    if e.ans = .noData then ({ s with rxcnt := 0, link := link, now := s.now + e.dt }, .noFrame)
    else
      let r := scan (maxTot lenP lenA) s.link 0 [] s.tlast s.now
      endReceive lenP lenA r.fin (commitScan r s)

/-! ### The operand wait -/

/-- The end of the operand wait with nothing received (R146): `LINK_ERR <- 1`, no `DecClear`. -/
def operandTimeout (s : State) : State × RxResult := (setLinkErr .timeout s, .fail .timeout)

/-- The loop of R146. `fuel` is the number of answers the link still has: each `NoFrame` uses one up, and when none is
left the link is silent, so the bound passes at some later poll (log entry 3). -/
def awaitOperand (len t0 : Nat) : Nat → State → State × RxResult
  | 0, s =>
    operandTimeout { s with
      rxcnt := 0, now := max s.now (t0 + tInact) + Config.silenceLag s.draws, draws := s.draws + 1 }
  | fuel + 1, s =>
    match receive len 0 s with
    | (s', .noFrame) => if tInact ≤ s'.now - t0 then operandTimeout s' else awaitOperand len t0 fuel s'
    | (s', .ok n) => (s', .ok n)
    | (s', .fail c) => (s', .fail c)

/-- `ReceiveOperand(len)` (R146). -/
def receiveOperand (len : Nat) (s : State) : State × RxResult :=
  awaitOperand len s.now s.link.length { s with dstate := .awaitingOperand }

/-! ### Send -/

/-- The output calls that emit one frame (R102). -/
def frameCalls (p : CrcParams) (payload : List Byte) : List Call := (packet p payload).map Call.encByte ++ [.encEof]

/-- `Send(p)` (R102). -/
def send (payload : List Byte) (s : State) : State :=
  { s with txcrc := crc16 s.cfg.crc payload, calls := s.calls ++ frameCalls s.cfg.crc payload }

/-- A reply of one byte: ACK, NAK or the status byte (R76). -/
def sendByte (b : Byte) (s : State) : State := send [b] s

/-- Operand failure (R155): the other error response beside `raiseAbort`; the loop pass then returns to `Idle`. -/
def operandFailed (s : State) : State :=
  setOpErr .opOperand (if s.cfg.operandFailReply = .nak then sendByte s.cfg.nak s else s)

/-- A command that reads an operand packet of `len` bytes (R147, R148, R151, R152): `ReceiveOperand`, then the rest
of the command, or R155. -/
def withOperand (len : Nat) (body : State → State) (s : State) : State :=
  match receiveOperand len s with
  | (s', .ok _) => body s'
  | (s', .fail _) => operandFailed s'
  | (s', .noFrame) => operandFailed s'

end Sys2Proof.Machine
end

