-- ==== Sys2Proof/Machine/Operands.lean ====
section
/-! DEFINITION. The operand packets of `prime`, `write`, `get` and `put`: the layout of each payload
(`30_encoding.md` R75, R77; `20_memory.md` R54, R55), read out of `RXBUF`, and the encoder of each. -/

namespace Sys2Proof.Machine

/-- The 16-bit block address from its two bytes, by `BLOCK_ADDR_ORDER` (R55, R77). -/
def assemble (order : ByteOrder) (p0 p1 : Byte) : Word :=
  match order with
  | .big => joinBytes p0 p1
  | .little => joinBytes p1 p0

/-- The two bytes of a block address, in the order they are sent (R55). -/
def addrBytes (order : ByteOrder) (addr : Word) : List Byte :=
  match order with
  | .big => [addr.extractLsb' 8 8, addr.extractLsb' 0 8]
  | .little => [addr.extractLsb' 0 8, addr.extractLsb' 8 8]

/-- `prime`: the vector at offset 0. -/
def operandVector (s : State) : Key := toBytes 256 (rxSlice s 0 256)

/-- `write`: the slot address at offset 0; every value is a legal slot (R77). -/
def operandSlot (s : State) : Byte := s.rxbuf[0]

/-- `write`: the Key at offset 1. -/
def operandKey (s : State) : Key := toBytes 256 (rxSlice s 1 256)

/-- `write`: the Response at offset 257. -/
def operandResponse (s : State) : Key := toBytes 256 (rxSlice s 257 256)

/-- `get` and `put`: the block address at offset 0. -/
def operandAddr (s : State) : Word := assemble s.cfg.blockAddrOrder s.rxbuf[0] s.rxbuf[1]

/-- `put`: the record at offset 2. -/
def operandRecord (s : State) : Record := toBytes 1024 (rxSlice s 2 1024)

/-- The operand payload of `prime v` (R84). -/
def encodePrime (v : Key) : List Byte := v.toList

/-- The operand payload of `write a, K, R` (R84). -/
def encodeWrite (a : Byte) (key response : Key) : List Byte := a :: (key.toList ++ response.toList)

/-- The operand payload of `get addr` (R84). -/
def encodeGet (order : ByteOrder) (addr : Word) : List Byte := addrBytes order addr

/-- The operand payload of `put addr, d` (R84). -/
def encodePut (order : ByteOrder) (addr : Word) (d : Record) : List Byte := addrBytes order addr ++ d.toList

end Sys2Proof.Machine
end

