-- ==== Sys2Proof/Machine/BlockCommands.lean ====
section
/-! DEFINITION. The commands on the Block Store (`43_dispatcher.md`): `get`, `put`. -/

namespace Sys2Proof.Machine

/-- The answer to a block address above 31 (R132, R151, R152). -/
def addressFailed (s : State) : State := setOpErr .opAddress (sendByte s.cfg.nak s)

/-- `get` once the operand is in `RXBUF` (R151). -/
def getBody (s : State) : State :=
  match readRecord (operandAddr s) s with
  | some d => setOpErr .opOk (send d.toList s)
  | none => addressFailed s

/-- `get` (R151). -/
def execGet (s : State) : Host.Outcome State Fault Refusal := .next (withOperand 2 getBody s)

/-- `put` once the operand is in `RXBUF` (R152). -/
def putBody (s : State) : State :=
  match writeRecord (operandAddr s) (operandRecord s) s with
  | some s' => setOpErr .opOk (sendByte s'.cfg.ack s')
  | none => addressFailed s

/-- `put` (R152). -/
def execPut (s : State) : Host.Outcome State Fault Refusal := .next (withOperand 1026 putBody s)

end Sys2Proof.Machine
end

