-- ==== Sys2Proof/Machine/KeyIndex.lean ====
section
/-! DEFINITION. The Key Index (`41_key_index.md`): `Compare`, `RebuildIndex`, `Find` and the binary search that
refines it, `ValidPerm`, `SetPermutation`, `WriteKeyPair`, `EraseAll`. -/

namespace Sys2Proof.Machine

/-- The 256 slot indices, ascending; also the 256 byte values. -/
def allBytes : List Byte := (List.range 256).map (BitVec.ofNat 8)

/-- Byte `j` of a key. -/
def keyByte (k : Key) (j : Byte) : Byte := k[j.toNat]'(j.isLt)

/-- `Compare` along a list of byte positions (R110); bytes are unsigned (R112). -/
def compareAlong : List Byte → Key → Key → Ordering
  | [], _, _ => .eq
  | j :: js, a, b =>
    if keyByte a j < keyByte b j then .lt
    else if keyByte b j < keyByte a j then .gt
    else compareAlong js a b

/-- `Compare(A, B)` under a vector (R110). -/
def compareKeys (perm : Bytes 256) (a b : Key) : Ordering := compareAlong perm.toList a b

/-- The order in which `RebuildIndex` lists two slots, each with its key: by the keys, slots whose keys compare `Eq`
by rank, and by slot where ranks are equal too. Over all ranks these are exactly the orders R113 allows (R114). -/
def entryBefore (perm : Bytes 256) (rank : Nat → Nat) (x y : Byte × Key) : Bool :=
  match compareKeys perm x.2 y.2 with
  | .lt => true
  | .gt => false
  | .eq =>
    if rank x.1.toNat = rank y.1.toNat then decide (x.1 ≤ y.1) else decide (rank x.1.toNat < rank y.1.toNat)

/-- All slots with their keys. -/
def entries (s : State) : List (Byte × Key) := allBytes.map fun a => (a, keyAt s a)

/-- The slots in that order. -/
def sortedSlots (s : State) (rank : Nat → Nat) : List Byte :=
  ((entries s).insertionSort fun x y => entryBefore s.perm rank x y = true).map Prod.fst

/-- The index that lists them. -/
@[irreducible] def sortedIndex (s : State) (rank : Nat → Nat) : Bytes 256 :=
  ⟨(sortedSlots s rank).toArray, by simp [sortedSlots, entries, allBytes]⟩

/-- `RebuildIndex()` (R113), the order among `Eq` keys a free value (R114, U6). -/
def rebuildIndex (s : State) : State :=
  { s with sidx := sortedIndex s (Config.tieRank s.draws), draws := s.draws + 1 }

/-- The set `M` of R115: the slots that hold the pattern, byte for byte. -/
def matchSet (s : State) (pattern : Key) : List Byte := allBytes.filter fun a => keyAt s a = pattern

/-- Some element of `M` (R115): none if `M` is empty, and which of several is a free value (R117, U7). -/
def pickSlot (m : List Byte) (pick : Nat) : FindResult :=
  match m with
  | [] => .notFound
  | [a] => .found a
  | a :: b :: rest => .found ((a :: b :: rest).getD (pick % (rest.length + 2)) a)

/-- `Find(pattern)` (R115). -/
def find (pattern : Key) (s : State) : State × FindResult :=
  ({ s with draws := s.draws + 1 }, pickSlot (matchSet s pattern) (Config.findPick s.draws))

/-- The loop of R116's binary search; `fuel` bounds the passes. -/
def searchLoop (s : State) (pattern : Key) : Nat → Nat → Nat → Nat
  | 0, lo, _ => lo
  | fuel + 1, lo, hi =>
    if lo < hi then
      let mid := (lo + hi) / 2
      if compareKeys s.perm (keyAt s (s.sidx.toList.getD mid 0)) pattern = .lt then searchLoop s pattern fuel (mid + 1) hi
      else searchLoop s pattern fuel lo mid
    else lo

/-- The search algorithm of R116, which the source names as one that meets R115. `find` is R115 itself; this reads
`SIDX` and is the refinement. Nine passes empty the interval `[0, 256)` (log entry 19). -/
def findBinary (pattern : Key) (s : State) : FindResult :=
  let lo := searchLoop s pattern 9 0 256
  if lo = 256 then .notFound
  else
    let slot := s.sidx.toList.getD lo 0
    if compareKeys s.perm (keyAt s slot) pattern = .eq then .found slot else .notFound

/-- `ValidPerm(v)` (R118): every value `0..255` occurs exactly once. -/
def validPerm (v : Key) : Bool := allBytes.all fun b => v.toList.count b == 1

/-- `SetPermutation(v)` (R119). -/
def setPermutation (v : Key) (s : State) : State × PermResult :=
  if validPerm v then (rebuildIndex { s with perm := v }, .accepted) else (s, .rejected)

/-- `WriteKeyPair(a, K, R)` (R120). -/
def writeKeyPair (a : Byte) (key response : Key) (s : State) : State := rebuildIndex (keySet a key response s)

/-- The key and the response of an empty slot (R12, R121). -/
def zeroKey : Key := Vector.replicate 256 0

/-- `EraseAll()` (R121): the slots in ascending order, then the rebuild. -/
def eraseAll (s : State) : State :=
  rebuildIndex (allBytes.foldl (fun s a => keySet a zeroKey zeroKey s) s)

end Sys2Proof.Machine
end

