-- ==== Sys2Proof/Machine/KeyCommands.lean ====
section
/-! DEFINITION. The commands on the Key Index (`43_dispatcher.md`): `lookup`, `prime`, `write`, `erase`. -/

namespace Sys2Proof.Machine

/-- `lookup` once `Find` has answered (R144). -/
def answerLookup (r : FindResult) (s : State) : State :=
  match r with
  | .found a => setOpErr .opOk (send (responseAt s a).toList s)
  | .notFound => setOpErr .opNotFound (if s.cfg.notFoundReply = .nak then sendByte s.cfg.nak s else s)

/-- `lookup` (R144). -/
def execLookup (pattern : Key) (s : State) : Host.Outcome State Fault Refusal :=
  .next (answerLookup (find pattern s).2 (find pattern s).1)

/-- `prime` once the operand is in `RXBUF` (R147). -/
def primeBody (s : State) : State :=
  match setPermutation (operandVector s) s with
  | (s', .accepted) => setOpErr .opOk (sendByte s'.cfg.ack s')
  | (s', .rejected) => setOpErr .opBadPerm (sendByte s'.cfg.nak s')

/-- `prime` (R147). -/
def execPrime (s : State) : Host.Outcome State Fault Refusal := .next (withOperand 256 primeBody s)

/-- `write` once the operand is in `RXBUF` (R148). -/
def writeBody (s : State) : State :=
  setOpErr .opOk (sendByte s.cfg.ack (writeKeyPair (operandSlot s) (operandKey s) (operandResponse s) s))

/-- `write` (R148). -/
def execWrite (s : State) : Host.Outcome State Fault Refusal := .next (withOperand 513 writeBody s)

/-- `erase` (R149). -/
def execErase (s : State) : Host.Outcome State Fault Refusal :=
  .next (setOpErr .opOk (sendByte s.cfg.ack (eraseAll s)))

end Sys2Proof.Machine
end

