-- ==== Sys2Proof/Machine/LinkCommands.lean ====
section
/-! DEFINITION. The commands that touch no store (`43_dispatcher.md`): `noise`, `status`, a reserved opcode. -/

namespace Sys2Proof.Machine

/-- The next `n` bytes of the random source, in the order drawn (R150): free values (U21). -/
def randomBytes (n : Nat) (s : State) : List Byte := (List.range n).map fun i => Config.randomByte (s.rng + i)

/-- `noise` (R150): 256 draws, then the reply. -/
def execNoise (s : State) : Host.Outcome State Fault Refusal :=
  .next (setOpErr .opOk (send (randomBytes 256 s) { s with rng := s.rng + 256 }))

/-- `status` (R153): the reply, then `LINK_ERR <- 0`; `OP_ERR` is not written (R156). -/
def execStatus (s : State) : Host.Outcome State Fault Refusal := .next (clearLinkErr (sendByte s.status s))

/-- A reserved opcode byte (R154); which byte it is makes no difference. -/
def execReserved (_op : Byte) (s : State) : Host.Outcome State Fault Refusal :=
  .next (setOpErr .opUnknown (sendByte s.cfg.nak s))

end Sys2Proof.Machine
end

