-- ==== Sys2Proof/Machine/Dispatch.lean ====
section
/-! DEFINITION. The dispatch of a decoded command to its meaning (`43_dispatcher.md` R140, R145). -/

namespace Sys2Proof.Machine

def exec (i : Instr) (s : State) : Host.Outcome State Fault Refusal :=
  match i with
  | .lookup pattern => Sys2Proof.Machine.execLookup pattern s
  | .prime => Sys2Proof.Machine.execPrime s
  | .write => Sys2Proof.Machine.execWrite s
  | .erase => Sys2Proof.Machine.execErase s
  | .noise => Sys2Proof.Machine.execNoise s
  | .get => Sys2Proof.Machine.execGet s
  | .put => Sys2Proof.Machine.execPut s
  | .status => Sys2Proof.Machine.execStatus s
  | .reserved op => Sys2Proof.Machine.execReserved op s

end Sys2Proof.Machine
end

