-- ==== Sys2Proof/Machine/Loop.lean ====
section
/-! DEFINITION. The command loop (`43_dispatcher.md` R140 to R143), the reset sequence (`70_reset_and_hazards.md`
R190), and the placing of frames on the link for the host. -/

namespace Sys2Proof.Machine

/-- The end of a pass after the command: `DSTATE <- Idle` (R140). -/
def thenIdle : Host.Outcome State Fault Refusal → Host.Outcome State Fault Refusal
  | .next s => .next (returnIdle s)
  | .fault r => .fault r
  | .refused r => .refused r

/-- What follows an accepted first packet with a payload of `n` bytes (R140, R143). -/
def transact (n : Nat) (s : State) : Host.Outcome State Fault Refusal :=
  match decode s.cfg (rxSlice s 0 n) with
  | .ok i => thenIdle (exec i (enterTransaction n s))
  | .error _ => .fault (.unclassifiedPacket n)

/-- `LoopPass()` (R140 to R142): one step of the agent (R8). -/
def loopPass (s : State) : Host.Outcome State Fault Refusal :=
  match receive 256 1 { s with dstate := .awaitingPacket } with
  | (s', .ok n) => transact n s'
  | (s', .fail _) => .next (returnIdle s')
  | (s', .noFrame) => .next (returnIdle s')

/-- `Reset()` (R190) from any state: the stores are not changed and nothing is sent. No working state survives
(`20_memory.md` R67): the registers whose value R39 leaves unspecified take the values of `State.reset` (log entries 10,
20). No step performs it: what causes a reset is outside the block (N11). -/
def resetBlock (s : State) : State :=
  { rebuildIndex { decClear s with perm := State.reset.perm } with
    status := 0x00, rxcnt := 0, dstate := .idle
    rxbuf := State.reset.rxbuf, tlast := State.reset.tlast, txcrc := State.reset.txcrc, curop := State.reset.curop }

/-- A frame's symbols as answers of `DecPoll`, each available at once. -/
def arriving (symbols : List LinkAns) : List LinkEvent := symbols.map fun a => { dt := 0, ans := a }

/-- The frames a client sends for the command a table word stands for (log entries 15, 16): the first packet, and an
operand packet of zeros where the command reads one. -/
def tableFrames (c : Config) (nbits w : Nat) : List LinkEvent :=
  let first := arriving (frame c.crc (tablePayload nbits w))
  match decode c (tablePayload nbits w) with
  | .ok i =>
    match operandLength i with
    | some len => first ++ arriving (frame c.crc (List.replicate len 0))
    | none => first
  | .error _ => first

end Sys2Proof.Machine
end

