-- ==== Sys2Proof/Machine/Step.lean ====
section
/-! DEFINITION. One step of the block: one pass of its command loop (`00_scope.md` R8, `43_dispatcher.md` R140), and
the host's way to place a command where the next step takes it. -/

namespace Sys2Proof.Machine

/-- One step. -/
def step (s : State) : Host.Outcome State Fault Refusal := loopPass s

/-- `s` with the frames of one command ahead of everything else on the link. The block fetches nothing (R33): a
command comes in through `DecPoll`, so this is the client sending it (log entry 15). -/
def State.withFetchWord (s : State) (nbits w : Nat) : State :=
  { s with link := tableFrames s.cfg nbits w ++ s.link }

end Sys2Proof.Machine
end

