-- ==== Sys2Proof/Safety.lean ====
section
/-! DEFINITION. What the statements are about: the invariants of the block (`10_state.md` R23, R24, R26, R31;
`41_key_index.md` R122) and the premises on the link of statements about exchanges (`40_codec.md` R104). -/

namespace Sys2Proof.Machine

/-- `PERM_VALID` (R23): every value `0..255` occurs exactly once in `PERM`. -/
def PermValid (s : State) : Prop := ∀ v : Byte, s.perm.toList.count v = 1

/-- `INDEX_SORTED` (R24): every slot occurs exactly once in `SIDX`, and of two entries the earlier one's key compares
`Lt` or `Eq` with the later one's. -/
def IndexSorted (s : State) : Prop :=
  (∀ a : Byte, s.sidx.toList.count a = 1) ∧
  s.sidx.toList.Pairwise fun a b => compareKeys s.perm (keyAt s a) (keyAt s b) ≠ .gt

/-- The values `STATUS` can hold (R31): bits 7 and 3 are 0, codes 6 and 7 are never written. -/
def StatusLegal (s : State) : Prop :=
  s.status.getLsbD 7 = false ∧ s.status.getLsbD 3 = false ∧
  statusOpErr s.status ≤ 5 ∧ statusLinkErr s.status ≤ 5

/-- Both stores are in canonical form and list no byte outside the 256 slots and the 32 records (R21, R22). -/
def StoresCanonical (s : State) : Prop :=
  s.keystore.wf = true ∧ (∀ c ∈ s.keystore, c.1 < 512 * 256) ∧
  s.blockstore.wf = true ∧ (∀ c ∈ s.blockstore, c.1 < 1024 * 32)

/-- The block between two passes. -/
structure Quiet (s : State) : Prop where
  permValid   : PermValid s
  indexSorted : IndexSorted s
  statusLegal : StatusLegal s
  stores      : StoresCanonical s
  rxcnt       : s.rxcnt ≤ 1028
  decLayer    : s.decLayer = .cleared
  dstate      : s.dstate = .idle

/-- The symbols among some answers of `DecPoll`: `NoData` is none (R71). -/
def symbolsIn (evs : List LinkEvent) : List LinkAns := (evs.map LinkEvent.ans).filter fun a => a ≠ .noData

/-- `TIMELY` (R104) as the block can notice it: at no `NoData` have `T_INACT` ms passed since the last symbol, or,
before the first symbol, since `gap` ms before the first answer. -/
def timely (gap : Nat) : List LinkEvent → Bool
  | [] => true
  | e :: evs =>
    if e.ans = .noData then decide (gap + e.dt < tInact) && timely (gap + e.dt) evs else timely 0 evs

/-- The answers `evs` carry the bytes `l` and then `EOF`, in time: nothing lost, nothing added, no `Err`
(`LOSSLESS_LINK` and `TIMELY`). -/
def Carries (l : List Byte) (evs : List LinkEvent) : Prop :=
  ∃ body dt, evs = body ++ [{ dt := dt, ans := .eof }] ∧ symbolsIn body = l.map LinkAns.byte ∧ timely 0 body = true

/-- The answers `evs` carry the frame of a payload (R70). -/
def Delivers (c : Config) (payload : List Byte) (evs : List LinkEvent) : Prop := Carries (packet c.crc payload) evs

/-- The first answer is a symbol: a `Receive` that begins here is not on an idle link. -/
def StartsAtOnce (evs : List LinkEvent) : Prop := ∃ e rest, evs = e :: rest ∧ e.ans ≠ .noData

end Sys2Proof.Machine
end

