-- ==== Sys2Proof/Certificates/Slice0/Obligations.lean ====
section
/-! DEFINITION. The statements for the provers, from the numbered rules of `spec/`. `OBLIGATIONS.json` lists each with
its rules. Premises on the link are those of `Safety.lean`: `Delivers c p evs` says that the answers `evs` carry the
frame of the payload `p` with no gap of 500 ms noticed (R104). -/

open Sys2Proof Sys2Proof.Machine

/-! ### Encodings -/

/-- Decoding the first payload of a command gives the command back, for every command that can be issued and every
admissible parameter record (R73, R74, R78, R83; `OP_STATUS` is a parameter by decision D15). -/
def Obligations.DecodeOfEncode : Prop :=
  ∀ (c : Config) (i : Instr), c.wf = true → i.wf c = true → decode c (encode c i) = .ok i

/-- Each payload has one meaning: what decodes to a command is that command's payload, and the command can be issued
(R73, R74, R78; `OP_STATUS` is a parameter by decision D15). -/
def Obligations.EncodeOfDecode : Prop :=
  ∀ (c : Config) (payload : List Byte) (i : Instr), decode c payload = .ok i → i.wf c = true ∧ encode c i = payload

/-- R145: the dispatch on the opcode byte. -/
def Obligations.OpcodeDispatch : Prop :=
  ∀ c : Config, c.wf = true →
    decode c [0x11] = .ok .prime ∧ decode c [0x22] = .ok .write ∧ decode c [0x33] = .ok .erase ∧
    decode c [0x44] = .ok .noise ∧ decode c [0x55] = .ok .get ∧ decode c [0x66] = .ok .put ∧
    (∀ op, c.opStatus = some op → decode c [op] = .ok .status) ∧
    (∀ op, op ∉ sixOpcodes → c.opStatus ≠ some op → decode c [op] = .ok (.reserved op))

/-- A few words written out from R74, under the default parameters and with `OP_STATUS = 0x77`. -/
def Obligations.DecodedWords : Prop :=
  decodeTableWord 8 0b00010001 = some .prime ∧ decodeTableWord 8 0b00100010 = some .write ∧
  decodeTableWord 8 0b00110011 = some .erase ∧ decodeTableWord 8 0b01000100 = some .noise ∧
  decodeTableWord 8 0b01010101 = some .get ∧ decodeTableWord 8 0b01100110 = some .put ∧
  decodeTableWord 8 0b10011001 = some (.reserved 0x99) ∧
  decode { defaultConfig with opStatus := some 0x77 } [0x77] = .ok .status

/-- R143, with the two lengths of R141: a 256-byte payload is a lookup whatever its first byte, a 1-byte payload is
an opcode. -/
def Obligations.ClassificationByLength : Prop :=
  ∀ (s t : State) (n : Nat), receive 256 1 s = (t, .ok n) →
    (n = 256 ∧ t.rxcnt = 258 ∧ ∃ k : Key, k.toList = rxSlice t 0 256 ∧ decode t.cfg (rxSlice t 0 n) = .ok (.lookup k)) ∨
    (n = 1 ∧ t.rxcnt = 3 ∧ decode t.cfg (rxSlice t 0 n) = .ok (decodeOpcode t.cfg t.rxbuf[0]) ∧
      ∀ k : Key, decodeOpcode t.cfg t.rxbuf[0] ≠ .lookup k)

/-- R75: the operand payload lengths, and every field at its offset. -/
def Obligations.OperandFieldsAtTheirOffsets : Prop :=
  operandLength .prime = some 256 ∧ operandLength .write = some 513 ∧
  operandLength .get = some 2 ∧ operandLength .put = some 1026 ∧
  operandLength .erase = none ∧ operandLength .noise = none ∧ operandLength .status = none ∧
  (∀ k, operandLength (.lookup k) = none) ∧
  ∀ s : State,
    (∀ (j : Nat) (h : j < 256), (operandVector s)[j] = s.rxbuf[j]) ∧
    operandSlot s = s.rxbuf[0] ∧
    (∀ (j : Nat) (h : j < 256), (operandKey s)[j] = s.rxbuf[1 + j]) ∧
    (∀ (j : Nat) (h : j < 256), (operandResponse s)[j] = s.rxbuf[257 + j]) ∧
    operandAddr s = assemble s.cfg.blockAddrOrder s.rxbuf[0] s.rxbuf[1] ∧
    (∀ (j : Nat) (h : j < 1024), (operandRecord s)[j] = s.rxbuf[2 + j])

/-- The operand decoders undo the operand encoders, for every value of every field and both byte orders (R75, R77; the
byte order of a block address is the parameter of decision D17). -/
def Obligations.OperandDecodeOfEncode : Prop :=
  ∀ s : State,
    (∀ v, rxSlice s 0 256 = encodePrime v → operandVector s = v) ∧
    (∀ a k r, rxSlice s 0 513 = encodeWrite a k r → operandSlot s = a ∧ operandKey s = k ∧ operandResponse s = r) ∧
    (∀ addr, rxSlice s 0 2 = encodeGet s.cfg.blockAddrOrder addr → operandAddr s = addr) ∧
    (∀ addr d, rxSlice s 0 1026 = encodePut s.cfg.blockAddrOrder addr d → operandAddr s = addr ∧ operandRecord s = d)

/-- R55: the block address under either order (decision D17 leaves the order open; the statement holds for both). -/
def Obligations.BlockAddressAssembly : Prop :=
  ∀ p0 p1 : Byte,
    (assemble .big p0 p1).toNat = p0.toNat * 256 + p1.toNat ∧
    (assemble .little p0 p1).toNat = p1.toNat * 256 + p0.toNat

/-- R53: high byte first, both when a checksum is sent and when it is put together again. -/
def Obligations.ChecksumTravelsBigEndian : Prop :=
  (∀ (p : List Byte) (s : State), ∃ hi lo : Byte,
    hi.toNat = (crc16 s.cfg.crc p).toNat / 256 ∧ lo.toNat = (crc16 s.cfg.crc p).toNat % 256 ∧
    (send p s).calls = s.calls ++ p.map Call.encByte ++ [.encByte hi, .encByte lo, .encEof]) ∧
  ∀ (s : State) (n : Nat) (h : n + 1 < 1028),
    (rxChecksum s n).toNat = s.rxbuf[n].toNat * 256 + s.rxbuf[n + 1].toNat

/-! ### The checksum -/

/-- R92 (3) for one byte, which the spec derives from R90: payloads of one length that differ in exactly one byte have
different checksums. -/
def Obligations.ChecksumSeesOneChangedByte : Prop :=
  ∀ (p : CrcParams) (pre post : List Byte) (b b' : Byte), p.poly.getLsbD 0 = true → b ≠ b' →
    crc16 p (pre ++ b :: post) ≠ crc16 p (pre ++ b' :: post)

/-- R92 (2), which the spec derives from R90: the difference of two checksums depends only on the difference of the
payloads. -/
def Obligations.ChecksumAffine : Prop :=
  ∀ (p : CrcParams) (a b c d : List Byte), a.length = b.length → c.length = d.length → a.length = c.length →
    List.zipWith (· ^^^ ·) a b = List.zipWith (· ^^^ ·) c d →
    crc16 p a ^^^ crc16 p b = crc16 p c ^^^ crc16 p d

/-! ### Receive -/

/-- R94: on an idle link nothing happens. Of the whole state only `RXCNT` changes, and of the environment the one poll's
answer and its time. That a link at the end of its list of answers is silent is log entry 2, the clock log entry 3. -/
def Obligations.ReceiveOnIdleLink : Prop :=
  ∀ (lenP lenA : Nat) (s : State),
    (s.link = [] ∨ ∃ e rest, s.link = e :: rest ∧ e.ans = .noData) →
    ∃ t, receive lenP lenA s = (t, .noFrame) ∧ { t with rxcnt := s.rxcnt, link := s.link, now := s.now } = s ∧
      t.rxcnt = 0 ∧ t.link = s.link.tail ∧ symbolsIn t.link = symbolsIn s.link ∧ s.now ≤ t.now

/-- R99: what holds after `Ok(n)`; the packet that arrived is in `RXBUF`. -/
def Obligations.ReceiveSuccess : Prop :=
  ∀ (lenP lenA n : Nat) (s t : State), 1 ≤ lenP → lenP ≤ 1026 → lenA ≤ 1026 → receive lenP lenA s = (t, .ok n) →
    (n = lenP ∨ n = lenA) ∧ t.decLayer = .cleared ∧ t.calls = s.calls ++ [.decClear] ∧ t.rxcnt = n + 2 ∧
    t.status = s.status ∧ crc16 s.cfg.crc (rxSlice t 0 n) = rxChecksum t n ∧
    ∃ body dt, s.link = body ++ { dt := dt, ans := .eof } :: t.link ∧
      symbolsIn body = (rxSlice t 0 (n + 2)).map LinkAns.byte

/-- R104, which the spec derives from R93 to R102: a frame that arrives whole and in time is accepted, and its payload
is in `RXBUF`. -/
def Obligations.LoopbackDeliversThePayload : Prop :=
  ∀ (lenP lenA : Nat) (s : State) (p : List Byte) (evs rest : List LinkEvent),
    1 ≤ lenP → lenP ≤ 1026 → lenA ≤ 1026 → 1 ≤ p.length → (p.length = lenP ∨ p.length = lenA) →
    s.link = evs ++ rest → Delivers s.cfg p evs → StartsAtOnce evs →
    ∃ t, receive lenP lenA s = (t, .ok p.length) ∧ rxSlice t 0 p.length = p ∧ t.link = rest

/-- R105, which the spec derives from R92 and R96: one byte of a packet replaced by another, payload or checksum, and
the frame is refused with cause `Crc`. -/
def Obligations.CorruptedByteIsRefused : Prop :=
  ∀ (lenP lenA : Nat) (s : State) (p pre post : List Byte) (b b' : Byte) (evs rest : List LinkEvent),
    1 ≤ lenP → lenP ≤ 1026 → lenA ≤ 1026 → 1 ≤ p.length → (p.length = lenP ∨ p.length = lenA) →
    s.cfg.crc.poly.getLsbD 0 = true → packet s.cfg.crc p = pre ++ b :: post → b ≠ b' →
    s.link = evs ++ rest → Carries (pre ++ b' :: post) evs → StartsAtOnce evs →
    ∃ t, receive lenP lenA s = (t, .fail .crc) ∧ t.link = rest

/-- R95, R96, R97: the aborts `Overrun`, `Length` and `Decode`, each at the symbol that raises it, with nothing drained
(decisions D7, D8, D9). -/
def Obligations.AbortsAtTheSymbolThatRaisesThem : Prop :=
  ∀ (lenP lenA : Nat) (s : State) (l : List Byte) (body rest : List LinkEvent) (e : LinkEvent),
    1 ≤ lenP → lenP ≤ 1026 → lenA ≤ 1026 → s.link = body ++ e :: rest → StartsAtOnce (body ++ [e]) →
    symbolsIn body = l.map LinkAns.byte → timely 0 body = true → l.length ≤ maxTot lenP lenA →
    ((∃ b, e.ans = .byte b) → l.length = maxTot lenP lenA →
      ∃ t, receive lenP lenA s = (t, .fail .overrun) ∧ t.link = rest) ∧
    (e.ans = .eof → l.length ≠ lenP + 2 → (lenA = 0 ∨ l.length ≠ lenA + 2) →
      ∃ t, receive lenP lenA s = (t, .fail .length) ∧ t.link = rest) ∧
    (e.ans = .err → ∃ t, receive lenP lenA s = (t, .fail .decode) ∧ t.link = rest)

/-- R98: the inactivity timeout. After an accepted byte the link may answer `NoData` any number of times (`w`), which
does not restart the timer; the first `NoData` that finds 500 ms passed since that byte aborts, with `TLAST` still the
time of the byte (decision D4). And a link that stays silent, at once or after some such answers, times out at or after
the bound (in one step: log entry 3). -/
def Obligations.InactivityTimeout : Prop :=
  ∀ (lenP lenA : Nat) (s : State) (l : List Byte) (body w : List LinkEvent) (b : Byte) (d : Nat),
    1 ≤ lenP → symbolsIn body = l.map LinkAns.byte → timely 0 body = true → StartsAtOnce (body ++ [⟨d, .byte b⟩]) →
    l.length < maxTot lenP lenA → symbolsIn w = [] → timely 0 w = true →
    (∀ dt rest, tInact ≤ (w.map LinkEvent.dt).sum + dt →
      s.link = body ++ ⟨d, .byte b⟩ :: (w ++ ⟨dt, .noData⟩ :: rest) →
      ∃ t, receive lenP lenA s = (t, .fail .timeout) ∧ t.link = rest ∧
        t.now = t.tlast + ((w.map LinkEvent.dt).sum + dt)) ∧
    (s.link = body ++ ⟨d, .byte b⟩ :: w →
      ∃ t, receive lenP lenA s = (t, .fail .timeout) ∧ t.link = [] ∧ tInact ≤ t.now - t.tlast)

/-- R100, R177: what an abort does, whatever its cause: `DecClear()`, `LINK_ERR`, and nothing of the stores or of the
Key Index (the codes in `STATUS` are those of decision D16). -/
def Obligations.AbortEffect : Prop :=
  ∀ (lenP lenA : Nat) (s t : State) (c : Cause), receive lenP lenA s = (t, .fail c) →
    t.decLayer = .cleared ∧ t.calls = s.calls ++ [.decClear] ∧
    statusLinkErr t.status = c.code ∧ statusOpErr t.status = statusOpErr s.status ∧
    t.keystore = s.keystore ∧ t.blockstore = s.blockstore ∧ t.perm = s.perm ∧ t.sidx = s.sidx ∧
    t.txcrc = s.txcrc ∧ t.curop = s.curop ∧ t.dstate = s.dstate

/-- R106, which the spec derives from R93, R99 and R100: no residue. What a `Receive` answers, the payload it accepts
and what it leaves on the link depend on the coming answers of the link, the arguments and the checksum parameters
alone, not on what the block held before. -/
def Obligations.NoResidue : Prop :=
  ∀ (lenP lenA : Nat) (s s' : State), lenP ≤ 1026 → lenA ≤ 1026 → s.link = s'.link → s.cfg.crc = s'.cfg.crc →
    (receive lenP lenA s).2 = (receive lenP lenA s').2 ∧
    (receive lenP lenA s).1.link = (receive lenP lenA s').1.link ∧
    ∀ n, (receive lenP lenA s).2 = .ok n →
      rxSlice (receive lenP lenA s).1 0 n = rxSlice (receive lenP lenA s').1 0 n

/-- R146: the operand wait. An operand that begins in time is received; a wait in which no symbol comes ends with
`Timeout` and no `DecClear` (decision D11; a link that stays silent in one step: log entry 3). -/
def Obligations.OperandWait : Prop :=
  ∀ (s : State) (len : Nat), 1 ≤ len → len ≤ 1026 →
    (∀ (p : List Byte) (evs rest : List LinkEvent), p.length = len → s.link = evs ++ rest → Delivers s.cfg p evs →
      ∃ t, receiveOperand len s = (t, .ok len) ∧ rxSlice t 0 len = p ∧ t.link = rest) ∧
    (∀ (wait rest : List LinkEvent) (dt : Nat), symbolsIn wait = [] → timely 0 wait = true →
      tInact ≤ (wait.map LinkEvent.dt).sum + dt → s.link = wait ++ ⟨dt, .noData⟩ :: rest →
      ∃ t, receiveOperand len s = (t, .fail .timeout) ∧ t.link = rest ∧ t.calls = s.calls ∧
        statusLinkErr t.status = Cause.timeout.code) ∧
    (symbolsIn s.link = [] → timely 0 s.link = true →
      ∃ t, receiveOperand len s = (t, .fail .timeout) ∧ t.link = [] ∧ t.calls = s.calls ∧
        statusLinkErr t.status = Cause.timeout.code ∧ tInact ≤ t.now - s.now)

/-! ### The Key Index -/

/-- R110, with the unsigned reading of bytes of R112 (decision D21, log entry 24): the comparison is decided by the first
position, in the order of the vector, where the keys differ. -/
def Obligations.CompareDecidedAtFirstDifference : Prop :=
  ∀ (perm : Bytes 256) (a b : Key),
    (compareKeys perm a b = .lt ↔ ∃ (k : Nat) (h : k < 256),
      (∀ (j : Nat) (hj : j < k), keyByte a perm[j] = keyByte b perm[j]) ∧
      (keyByte a perm[k]).toNat < (keyByte b perm[k]).toNat) ∧
    (compareKeys perm a b = .gt ↔ ∃ (k : Nat) (h : k < 256),
      (∀ (j : Nat) (hj : j < k), keyByte a perm[j] = keyByte b perm[j]) ∧
      (keyByte b perm[k]).toNat < (keyByte a perm[k]).toNat) ∧
    (compareKeys perm a b = .eq ↔ ∀ (k : Nat) (h : k < 256), keyByte a perm[k] = keyByte b perm[k])

/-- R111, which the spec derives from R110: under any vector, valid or not, the comparison is a total preorder. -/
def Obligations.CompareTotalPreorder : Prop :=
  ∀ (perm : Bytes 256) (a b c : Key),
    compareKeys perm a a = .eq ∧
    (compareKeys perm a b = .lt ↔ compareKeys perm b a = .gt) ∧
    (compareKeys perm a b ≠ .gt → compareKeys perm b c ≠ .gt → compareKeys perm a c ≠ .gt)

/-- R111, which the spec derives from R110: under a valid vector only equal keys compare `Eq`. -/
def Obligations.CompareEqOnlyForEqualKeys : Prop :=
  ∀ (s : State) (a b : Key), PermValid s → (compareKeys s.perm a b = .eq ↔ a = b)

/-- R113: after `RebuildIndex`, from every state, every slot is in the index once and the index is sorted; nothing
else is written (the counter of free choices is the model's own). -/
def Obligations.RebuildSortsTheIndex : Prop :=
  ∀ s : State, IndexSorted (rebuildIndex s) ∧ { rebuildIndex s with sidx := s.sidx, draws := s.draws } = s

/-- R114, log entry 6: `RebuildIndex` is no narrower than the rule: every order R113 allows is the one some ranking of
the slots gives. -/
def Obligations.EveryLegalIndexIsPossible : Prop :=
  ∀ (s : State) (σ : Bytes 256), IndexSorted { s with sidx := σ } →
    ∃ rank : Nat → Nat, sortedIndex s rank = σ

/-- R115 (decision D30: the result is the slot): `Find` answers with a slot that holds the pattern, byte for byte, and
with `NotFound` just when none does; it changes nothing but the model's counter of free choices (log entry 7). -/
def Obligations.FindByContent : Prop :=
  ∀ (s : State) (pattern : Key),
    ((∃ a, (find pattern s).2 = .found a ∧ keyAt s a = pattern) ∨
      ((find pattern s).2 = .notFound ∧ ∀ a, keyAt s a ≠ pattern)) ∧
    { (find pattern s).1 with draws := s.draws } = s

/-- R115, R117, log entry 7: any slot that holds the pattern is the one some choice picks. -/
def Obligations.EveryMatchingSlotIsPossible : Prop :=
  ∀ (s : State) (pattern : Key) (a : Byte), keyAt s a = pattern →
    ∃ pick, pickSlot (matchSet s pattern) pick = .found a

/-- R116: under the two invariants the binary search meets R115 (nine passes, as its pseudocode makes them: log entry
19). -/
def Obligations.BinarySearchMeetsFind : Prop :=
  ∀ (s : State) (pattern : Key), PermValid s → IndexSorted s →
    (∃ a, findBinary pattern s = .found a ∧ keyAt s a = pattern) ∨
    (findBinary pattern s = .notFound ∧ ∀ a, keyAt s a ≠ pattern)

/-- R118: every value exactly once, equivalently no two entries equal. -/
def Obligations.ValidPermIsNoRepetition : Prop :=
  ∀ v : Key,
    (validPerm v = true ↔ ∀ b : Byte, v.toList.count b = 1) ∧
    (validPerm v = true ↔ ∀ (i j : Nat) (hi : i < 256) (hj : j < 256), v[i] = v[j] → i = j)

/-! ### The stores -/

/-- R130, R131, R133: `ReadRecord` and `WriteRecord`, in range and out of range (decision D18), and that the record
read is the one last written, which the spec derives. -/
def Obligations.RecordReadBack : Prop :=
  ∀ (s : State) (a : Word) (d : Record),
    (31 < a.toNat → readRecord a s = none ∧ writeRecord a d s = none) ∧
    (a.toNat ≤ 31 → ∃ t, writeRecord a d s = some t ∧ readRecord a t = some d ∧
      (∀ b, b ≠ a → readRecord b t = readRecord b s) ∧
      t.keystore = s.keystore ∧ t.perm = s.perm ∧ t.sidx = s.sidx)

/-- R51, R52: a second `KeySet` or `BlkSet` of the same data leaves the stores, as data, as the first left them (their
canonical form is the model's own, log entry 17). -/
def Obligations.RepeatedStoreIsHarmless : Prop :=
  ∀ (s : State) (a : Byte) (k r : Key) (addr : Word) (d : Record),
    (keySet a k r (keySet a k r s)).keystore = (keySet a k r s).keystore ∧
    (blkSet addr d (blkSet addr d s)).blockstore = (blkSet addr d s).blockstore

/-! ### The commands: what each does -/

/-- R144, found: the Response of a slot that holds the pattern is sent (`Find` answers the slot: decision D30; the
field `OP_ERR`: decision D16). -/
def Obligations.LookupSendsTheResponse : Prop :=
  ∀ (s : State) (pattern : Key), (∃ a, keyAt s a = pattern) →
    ∃ t a, exec (.lookup pattern) s = .next t ∧ keyAt s a = pattern ∧
      t.calls = s.calls ++ frameCalls s.cfg.crc (responseAt s a).toList ∧
      statusOpErr t.status = OpErr.opOk.code ∧ t.keystore = s.keystore ∧ t.blockstore = s.blockstore

/-- R144, not found: NAK or silence, by `NOTFOUND_REPLY` (decision D13; the field `OP_ERR`: decision D16). -/
def Obligations.LookupNotFound : Prop :=
  ∀ (s : State) (pattern : Key), (∀ a, keyAt s a ≠ pattern) →
    ∃ t, exec (.lookup pattern) s = .next t ∧
      t.calls = s.calls ++ (if s.cfg.notFoundReply = .nak then frameCalls s.cfg.crc [s.cfg.nak] else []) ∧
      statusOpErr t.status = OpErr.opNotFound.code ∧ t.keystore = s.keystore ∧ t.blockstore = s.blockstore

/-- R147: a valid vector is installed and the index rebuilt, an invalid one changes neither (decision D19); ACK or NAK
(the operand wait: decision D11; the field `OP_ERR`: decision D16). A failed operand is R155. -/
def Obligations.PrimeImportsThePermutation : Prop :=
  ∀ (s : State) (v : Key) (evs rest : List LinkEvent), s.link = evs ++ rest → Delivers s.cfg (encodePrime v) evs →
    ∃ t, exec .prime s = .next t ∧ t.link = rest ∧ t.keystore = s.keystore ∧ t.blockstore = s.blockstore ∧
      (validPerm v = true → t.perm = v ∧ IndexSorted t ∧ statusOpErr t.status = OpErr.opOk.code ∧
        t.calls = s.calls ++ .decClear :: frameCalls s.cfg.crc [s.cfg.ack]) ∧
      (validPerm v = false → t.perm = s.perm ∧ t.sidx = s.sidx ∧ statusOpErr t.status = OpErr.opBadPerm.code ∧
        t.calls = s.calls ++ .decClear :: frameCalls s.cfg.crc [s.cfg.nak])

/-- R148: the pair is in its slot, the other slots are as before, the index is rebuilt, ACK (decision D31: the command
cannot fail once its operand is received; the operand wait: D11; the field `OP_ERR`: D16). -/
def Obligations.WriteEnrollsThePair : Prop :=
  ∀ (s : State) (a : Byte) (k r : Key) (evs rest : List LinkEvent), s.link = evs ++ rest →
    Delivers s.cfg (encodeWrite a k r) evs →
    ∃ t, exec .write s = .next t ∧ t.link = rest ∧ keyAt t a = k ∧ responseAt t a = r ∧
      (∀ b, b ≠ a → keyAt t b = keyAt s b ∧ responseAt t b = responseAt s b) ∧ IndexSorted t ∧ t.perm = s.perm ∧
      t.blockstore = s.blockstore ∧ statusOpErr t.status = OpErr.opOk.code ∧
      t.calls = s.calls ++ .decClear :: .keySet a k r :: frameCalls s.cfg.crc [s.cfg.ack]

/-- R149, R121: every slot is zero, the index is rebuilt, ACK always (decision D31), the writes in ascending order
(decision D24); the field `OP_ERR`: decision D16. -/
def Obligations.EraseZeroesTheStore : Prop :=
  ∀ s : State, ∃ t, exec .erase s = .next t ∧ (∀ a, keyAt t a = zeroKey ∧ responseAt t a = zeroKey) ∧
    IndexSorted t ∧ t.perm = s.perm ∧ t.blockstore = s.blockstore ∧ statusOpErr t.status = OpErr.opOk.code ∧
    t.calls = s.calls ++ (allBytes.map fun a => .keySet a zeroKey zeroKey) ++ frameCalls s.cfg.crc [s.cfg.ack]

/-- R150: 256 bytes of the random source, in the order drawn (decision D27; the field `OP_ERR`: decision D16). The
bytes are free values (log entry 8): the statement holds whatever they are. -/
def Obligations.NoiseSendsDrawnBytes : Prop :=
  ∀ s : State, ∃ (t : State) (n : List Byte), exec .noise s = .next t ∧ n.length = 256 ∧
    (∀ i, i < 256 → n[i]? = some (Config.randomByte (s.rng + i))) ∧ t.rng = s.rng + 256 ∧
    t.calls = s.calls ++ frameCalls s.cfg.crc n ∧ statusOpErr t.status = OpErr.opOk.code

/-- R151: the record of a legal address, NAK for any other (decision D18), whichever operand arrives (the operand
wait: decision D11; the field `OP_ERR`: decision D16). -/
def Obligations.GetSendsTheRecord : Prop :=
  ∀ (s : State) (addr : Word) (evs rest : List LinkEvent), s.link = evs ++ rest →
    Delivers s.cfg (encodeGet s.cfg.blockAddrOrder addr) evs →
    ∃ t, exec .get s = .next t ∧ t.link = rest ∧ t.blockstore = s.blockstore ∧
      (addr.toNat ≤ 31 → statusOpErr t.status = OpErr.opOk.code ∧
        t.calls = s.calls ++ .decClear :: frameCalls s.cfg.crc (blkGet s addr).toList) ∧
      (31 < addr.toNat → statusOpErr t.status = OpErr.opAddress.code ∧
        t.calls = s.calls ++ .decClear :: frameCalls s.cfg.crc [s.cfg.nak])

/-- R152: the record is written at a legal address and acknowledged; at any other nothing is written, NAK (decision
D18; the operand wait: decision D11; the field `OP_ERR`: decision D16). -/
def Obligations.PutStoresTheRecord : Prop :=
  ∀ (s : State) (addr : Word) (d : Record) (evs rest : List LinkEvent), s.link = evs ++ rest →
    Delivers s.cfg (encodePut s.cfg.blockAddrOrder addr d) evs →
    ∃ t, exec .put s = .next t ∧ t.link = rest ∧ t.keystore = s.keystore ∧
      (addr.toNat ≤ 31 → blkGet t addr = d ∧ (∀ b, b ≠ addr → blkGet t b = blkGet s b) ∧
        statusOpErr t.status = OpErr.opOk.code ∧
        t.calls = s.calls ++ .decClear :: .blkSet addr d :: frameCalls s.cfg.crc [s.cfg.ack]) ∧
      (31 < addr.toNat → t.blockstore = s.blockstore ∧ statusOpErr t.status = OpErr.opAddress.code ∧
        t.calls = s.calls ++ .decClear :: frameCalls s.cfg.crc [s.cfg.nak])

/-- R153: the status byte is sent, then `LINK_ERR` cleared; a second `status` sends the same `OP_ERR` and no link error
(decision D16). -/
def Obligations.StatusReportsAndClears : Prop :=
  ∀ s : State, ∃ t u, exec .status s = .next t ∧ t.calls = s.calls ++ frameCalls s.cfg.crc [s.status] ∧
    exec .status t = .next u ∧ u.calls = t.calls ++ frameCalls s.cfg.crc [t.status] ∧
    statusLinkErr t.status = 0 ∧ statusOpErr t.status = statusOpErr s.status ∧ u.status = t.status

/-- R154: NAK; no operand is read, no storage touched, and which byte it was makes no difference (the field `OP_ERR`:
decision D16). -/
def Obligations.ReservedOpcodeAnswersNak : Prop :=
  ∀ (s : State) (op : Byte), ∃ t, exec (.reserved op) s = .next t ∧
    t.calls = s.calls ++ frameCalls s.cfg.crc [s.cfg.nak] ∧ statusOpErr t.status = OpErr.opUnknown.code ∧
    t.link = s.link ∧ t.keystore = s.keystore ∧ t.blockstore = s.blockstore ∧ t.perm = s.perm ∧ t.sidx = s.sidx

/-- R155, R177: a failed operand ends any of the four commands that read one, with no other effect on a store, on
`PERM` or on `SIDX`; NAK or silence by `OPERAND_FAIL_REPLY` (decision D12; the fields of `STATUS`: decision D16). -/
def Obligations.OperandFailureHasNoOtherEffect : Prop :=
  ∀ (s t : State) (i : Instr) (len : Nat) (c : Cause), operandLength i = some len →
    receiveOperand len s = (t, .fail c) →
    ∃ u, exec i s = .next u ∧ u.keystore = s.keystore ∧ u.blockstore = s.blockstore ∧ u.perm = s.perm ∧
      u.sidx = s.sidx ∧ statusOpErr u.status = OpErr.opOperand.code ∧ statusLinkErr u.status = c.code ∧
      u.calls = t.calls ++ (if s.cfg.operandFailReply = .nak then frameCalls s.cfg.crc [s.cfg.nak] else [])

/-! ### The commands: what each leaves unchanged -/

/-- The frame of the commands without an operand packet that store nothing: `lookup`, `noise`, `status` and a reserved
opcode. They write `STATUS` and `TXCRC` and emit a reply; `noise` draws from the random source, `lookup` makes one free
choice. -/
def Obligations.FrameOfCommandsThatStoreNothing : Prop :=
  ∀ (i : Instr) (s t : State),
    ((∃ k, i = .lookup k) ∨ i = .noise ∨ i = .status ∨ ∃ op, i = .reserved op) → exec i s = .next t →
    t.cfg = s.cfg ∧ t.perm = s.perm ∧ t.sidx = s.sidx ∧ t.rxbuf = s.rxbuf ∧ t.rxcnt = s.rxcnt ∧ t.tlast = s.tlast ∧
    t.dstate = s.dstate ∧ t.curop = s.curop ∧ t.decLayer = s.decLayer ∧ t.link = s.link ∧ t.now = s.now ∧
    (i ≠ .noise → t.rng = s.rng) ∧ ((∀ k, i ≠ .lookup k) → t.draws = s.draws) ∧
    (i ≠ .status → statusLinkErr t.status = statusLinkErr s.status) ∧
    (i = .status → statusOpErr t.status = statusOpErr s.status) ∧
    t.status.getLsbD 7 = s.status.getLsbD 7 ∧ t.status.getLsbD 3 = s.status.getLsbD 3 ∧
    (∀ a, t.keystore.read a = s.keystore.read a) ∧ (∀ a, t.blockstore.read a = s.blockstore.read a)

/-- The frame of `erase`: beside the 256 slots, `SIDX`, `TXCRC` and `OP_ERR`, nothing but the free choice of the rebuild
and the output calls. -/
def Obligations.FrameOfErase : Prop :=
  ∀ s t : State, exec .erase s = .next t →
    t.cfg = s.cfg ∧ t.perm = s.perm ∧ t.rxbuf = s.rxbuf ∧ t.rxcnt = s.rxcnt ∧ t.tlast = s.tlast ∧
    t.dstate = s.dstate ∧ t.curop = s.curop ∧ t.decLayer = s.decLayer ∧ t.link = s.link ∧ t.now = s.now ∧
    t.rng = s.rng ∧ statusLinkErr t.status = statusLinkErr s.status ∧
    t.status.getLsbD 7 = s.status.getLsbD 7 ∧ t.status.getLsbD 3 = s.status.getLsbD 3 ∧
    (∀ a, (∀ slot, ¬ (slotBase slot ≤ a ∧ a < slotBase slot + 512)) → t.keystore.read a = s.keystore.read a) ∧
    (∀ a, t.blockstore.read a = s.blockstore.read a)

/-- The frame of `prime` and `get`: no byte of either store changes; `get` changes neither `PERM` nor `SIDX`. What
receiving an operand writes is named by its absence: `RXBUF`, `RXCNT`, `TLAST`, `LINK_ERR`, the decoding layer, the
link, the clock; `TXCRC` and `OP_ERR` are the reply's. -/
def Obligations.FrameOfPrimeAndGet : Prop :=
  ∀ (i : Instr) (s t : State), (i = .prime ∨ i = .get) → exec i s = .next t →
    t.cfg = s.cfg ∧ t.curop = s.curop ∧ t.rng = s.rng ∧ t.dstate = .awaitingOperand ∧
    (i = .get → t.perm = s.perm ∧ t.sidx = s.sidx) ∧
    t.status.getLsbD 7 = s.status.getLsbD 7 ∧ t.status.getLsbD 3 = s.status.getLsbD 3 ∧
    (∀ len n, operandLength i = some len → (receiveOperand len s).2 = .ok n →
      statusLinkErr t.status = statusLinkErr s.status) ∧
    (∀ a, t.keystore.read a = s.keystore.read a) ∧ (∀ a, t.blockstore.read a = s.blockstore.read a)

/-- The frame of `write`: the bytes it may store to are those of the slot its operand names. -/
def Obligations.FrameOfWrite : Prop :=
  ∀ s t : State, exec .write s = .next t →
    t.cfg = s.cfg ∧ t.curop = s.curop ∧ t.rng = s.rng ∧ t.dstate = .awaitingOperand ∧ t.perm = s.perm ∧
    t.status.getLsbD 7 = s.status.getLsbD 7 ∧ t.status.getLsbD 3 = s.status.getLsbD 3 ∧
    (∀ n, (receiveOperand 513 s).2 = .ok n → statusLinkErr t.status = statusLinkErr s.status) ∧
    (∀ a, ¬ (slotBase (operandSlot (receiveOperand 513 s).1) ≤ a ∧
        a < slotBase (operandSlot (receiveOperand 513 s).1) + 512) → t.keystore.read a = s.keystore.read a) ∧
    (∀ a, t.blockstore.read a = s.blockstore.read a)

/-- The frame of `put`: the bytes it may store to are those of the record its operand names. -/
def Obligations.FrameOfPut : Prop :=
  ∀ s t : State, exec .put s = .next t →
    t.cfg = s.cfg ∧ t.curop = s.curop ∧ t.rng = s.rng ∧ t.dstate = .awaitingOperand ∧ t.perm = s.perm ∧
    t.sidx = s.sidx ∧
    t.status.getLsbD 7 = s.status.getLsbD 7 ∧ t.status.getLsbD 3 = s.status.getLsbD 3 ∧
    (∀ n, (receiveOperand 1026 s).2 = .ok n → statusLinkErr t.status = statusLinkErr s.status) ∧
    (∀ a, t.keystore.read a = s.keystore.read a) ∧
    (∀ a, ¬ (recordBase (operandAddr (receiveOperand 1026 s).1) ≤ a ∧
        a < recordBase (operandAddr (receiveOperand 1026 s).1) + 1024) → t.blockstore.read a = s.blockstore.read a)

/-! ### Commands one after another -/

/-- S7, R117, R123, which the spec derives: a key just enrolled is found, with its Response, if no other slot holds
it. -/
def Obligations.EnrolledKeyIsFound : Prop :=
  ∀ (s : State) (a : Byte) (k r : Key) (evs rest : List LinkEvent), s.link = evs ++ rest →
    Delivers s.cfg (encodeWrite a k r) evs → (∀ b, b ≠ a → keyAt s b ≠ k) →
    ∃ t u, exec .write s = .next t ∧ exec (.lookup k) t = .next u ∧
      u.calls = t.calls ++ frameCalls s.cfg.crc r.toList

/-- S9, R133, which the spec derives: a record just put is the one `get` sends. -/
def Obligations.PutRecordIsRead : Prop :=
  ∀ (s : State) (addr : Word) (d : Record) (evs evs' rest : List LinkEvent), addr.toNat ≤ 31 →
    s.link = evs ++ (evs' ++ rest) → Delivers s.cfg (encodePut s.cfg.blockAddrOrder addr d) evs →
    Delivers s.cfg (encodeGet s.cfg.blockAddrOrder addr) evs' →
    ∃ t u, exec .put s = .next t ∧ exec .get t = .next u ∧
      u.calls = t.calls ++ .decClear :: frameCalls s.cfg.crc d.toList

/-- S6, R117, R123 (3), which the spec derives: after `erase` no key but the all-zero one is found, and the all-zero
one is, with the all-zero Response (decision D23). -/
def Obligations.ErasedKeysAreNotFound : Prop :=
  ∀ (s : State) (k : Key), ∃ t u, exec .erase s = .next t ∧ exec (.lookup k) t = .next u ∧
    (k ≠ zeroKey → statusOpErr u.status = OpErr.opNotFound.code) ∧
    (k = zeroKey → u.calls = t.calls ++ frameCalls s.cfg.crc zeroKey.toList)

/-- S5, R123 (2), which the spec derives: `prime` does not alter which keys are enrolled or in which slots: the match
set of every `Find` is the same before and after. -/
def Obligations.PrimePreservesEnrolledKeys : Prop :=
  ∀ (s t : State), exec .prime s = .next t → ∀ k : Key, matchSet t k = matchSet s k

/-! ### The machine -/

/-- A step runs the decoded command: when the first packet of a pass decodes to a command, the step is that command on
the state of R140 (`DSTATE <- Lookup`, or `CUROP <- RXBUF[0]`), and then `DSTATE <- Idle`. -/
def Obligations.StepRunsTheDecodedCommand : Prop :=
  ∀ (s t : State) (n : Nat) (i : Instr), receive 256 1 { s with dstate := .awaitingPacket } = (t, .ok n) →
    decode t.cfg (rxSlice t 0 n) = .ok i → step s = thenIdle (exec i (enterTransaction n t))

/-- R140, R141, R145: a command whose first packet arrives whole and in time is the command the next step runs, on a
state in which the link goes on behind that packet and the stores and the Key Index are as they were. -/
def Obligations.DeliveredCommandRuns : Prop :=
  ∀ (s : State) (i : Instr) (evs rest : List LinkEvent), s.cfg.wf = true → i.wf s.cfg = true →
    s.link = evs ++ rest → Delivers s.cfg (encode s.cfg i) evs → StartsAtOnce evs →
    ∃ t, step s = thenIdle (exec i t) ∧ t.link = rest ∧ t.cfg = s.cfg ∧ t.keystore = s.keystore ∧
      t.blockstore = s.blockstore ∧ t.perm = s.perm ∧ t.sidx = s.sidx ∧ t.status = s.status ∧ t.rng = s.rng ∧
      t.calls = s.calls ++ [.decClear]

/-- R142: a pass whose first packet is missing or failed sends nothing and changes only what `Receive` wrote (the
field `OP_ERR`: decision D16). -/
def Obligations.SilentReturn : Prop :=
  ∀ (s t : State) (r : RxResult), receive 256 1 { s with dstate := .awaitingPacket } = (t, r) →
    (r = .noFrame ∨ ∃ c, r = .fail c) →
    ∃ u, step s = .next u ∧ u = { t with dstate := .idle } ∧
      (u.calls = s.calls ∨ u.calls = s.calls ++ [.decClear]) ∧
      u.keystore = s.keystore ∧ u.blockstore = s.blockstore ∧ u.perm = s.perm ∧ u.sidx = s.sidx ∧
      u.txcrc = s.txcrc ∧ u.curop = s.curop ∧ statusOpErr u.status = statusOpErr s.status ∧
      (r = .noFrame → u.rxbuf = s.rxbuf ∧ u.tlast = s.tlast ∧ u.status = s.status)

/-- R160: no failure stops the loop. From every state, reached or not, a step ends in a next state with
`DSTATE = Idle`. -/
def Obligations.NoFailureStopsTheLoop : Prop :=
  ∀ s : State, ∃ t, step s = .next t ∧ t.dstate = .idle

/-- R158, which the spec derives: at most one reply frame a pass, after every storage write, and of one of the three
lengths of R102. -/
def Obligations.ReplyIsTheLastAction : Prop :=
  ∀ s t : State, step s = .next t → ∃ pre reply, t.calls = s.calls ++ pre ++ reply ∧
    (∀ c ∈ pre, c = .decClear ∨ (∃ a k r, c = .keySet a k r) ∨ ∃ a d, c = .blkSet a d) ∧
    (reply = [] ∨ ∃ p : List Byte, reply = frameCalls s.cfg.crc p ∧ (p.length = 1 ∨ p.length = 256 ∨ p.length = 1024))

/-- R122, which the spec derives, with R26, R31 (decision D16) and R39: what holds between passes goes on to hold
after every step: `PERM` is a permutation, the index sorted, `STATUS` legal, the stores canonical (log entry 17),
`RXCNT` in range, the decoding layer cleared, the loop idle. -/
def Obligations.StepKeepsQuiet : Prop :=
  ∀ s t : State, Quiet s → step s = .next t → Quiet t

/-- The invariant of `StepKeepsQuiet` holds after reset, with the model's choices of log entries 9, 10 and 11. -/
def Obligations.ResetIsQuiet : Prop := Quiet State.reset

/-- R190, R191, R67: the reset sequence from any state, whatever the stores hold (decision D25 for what it does beyond
`PERM` and `SIDX`). No working state survives it: after a reset the registers do not depend on what they held before,
and `SIDX` depends on `KEYSTORE` and the free choice alone. Which values the registers take that R39 leaves unspecified
is the model's choice (log entries 10, 20), and the statement does not say. -/
def Obligations.ResetSequence : Prop :=
  ∀ s : State,
    (∀ (k : Nat) (h : k < 256), ((resetBlock s).perm[k]).toNat = k) ∧ PermValid (resetBlock s) ∧
    IndexSorted (resetBlock s) ∧ (resetBlock s).status = 0 ∧ (resetBlock s).rxcnt = 0 ∧
    (resetBlock s).dstate = .idle ∧ (resetBlock s).decLayer = .cleared ∧
    (resetBlock s).keystore = s.keystore ∧ (resetBlock s).blockstore = s.blockstore ∧
    (resetBlock s).calls = s.calls ++ [.decClear] ∧
    ∀ s' : State,
      (resetBlock s).rxbuf = (resetBlock s').rxbuf ∧ (resetBlock s).tlast = (resetBlock s').tlast ∧
      (resetBlock s).txcrc = (resetBlock s').txcrc ∧ (resetBlock s).curop = (resetBlock s').curop ∧
      (s.keystore = s'.keystore → s.draws = s'.draws → (resetBlock s).sidx = (resetBlock s').sidx)

/-- No step changes the parameters, takes back an output, un-reads a symbol or turns the clock back (R10 with decision
D5, R13, R36; as data: log entries 1 to 4). -/
def Obligations.StepOnlyGoesForward : Prop :=
  ∀ s t : State, step s = .next t →
    t.cfg = s.cfg ∧ s.calls <+: t.calls ∧ t.link <:+ s.link ∧ s.now ≤ t.now
end

