-- ==== Sys2Proof/Laws/State.lean ====
section
/-! SUPPORT. One lemma per field per named update of the state: what the field holds after it. -/

namespace Sys2Proof.Machine

/-! ### `setOpErr` -/

@[simp] theorem setOpErr_cfg (e : OpErr) (s : State) : (setOpErr e s).cfg = s.cfg := rfl
@[simp] theorem setOpErr_keystore (e : OpErr) (s : State) : (setOpErr e s).keystore = s.keystore := rfl
@[simp] theorem setOpErr_blockstore (e : OpErr) (s : State) : (setOpErr e s).blockstore = s.blockstore := rfl
@[simp] theorem setOpErr_perm (e : OpErr) (s : State) : (setOpErr e s).perm = s.perm := rfl
@[simp] theorem setOpErr_sidx (e : OpErr) (s : State) : (setOpErr e s).sidx = s.sidx := rfl
@[simp] theorem setOpErr_rxbuf (e : OpErr) (s : State) : (setOpErr e s).rxbuf = s.rxbuf := rfl
@[simp] theorem setOpErr_rxcnt (e : OpErr) (s : State) : (setOpErr e s).rxcnt = s.rxcnt := rfl
@[simp] theorem setOpErr_tlast (e : OpErr) (s : State) : (setOpErr e s).tlast = s.tlast := rfl
@[simp] theorem setOpErr_txcrc (e : OpErr) (s : State) : (setOpErr e s).txcrc = s.txcrc := rfl
@[simp] theorem setOpErr_dstate (e : OpErr) (s : State) : (setOpErr e s).dstate = s.dstate := rfl
@[simp] theorem setOpErr_curop (e : OpErr) (s : State) : (setOpErr e s).curop = s.curop := rfl
@[simp] theorem setOpErr_status (e : OpErr) (s : State) : (setOpErr e s).status = withOpErr s.status e.code := rfl
@[simp] theorem setOpErr_decLayer (e : OpErr) (s : State) : (setOpErr e s).decLayer = s.decLayer := rfl
@[simp] theorem setOpErr_link (e : OpErr) (s : State) : (setOpErr e s).link = s.link := rfl
@[simp] theorem setOpErr_now (e : OpErr) (s : State) : (setOpErr e s).now = s.now := rfl
@[simp] theorem setOpErr_rng (e : OpErr) (s : State) : (setOpErr e s).rng = s.rng := rfl
@[simp] theorem setOpErr_draws (e : OpErr) (s : State) : (setOpErr e s).draws = s.draws := rfl
@[simp] theorem setOpErr_calls (e : OpErr) (s : State) : (setOpErr e s).calls = s.calls := rfl

/-! ### `setLinkErr` -/

@[simp] theorem setLinkErr_cfg (c : Cause) (s : State) : (setLinkErr c s).cfg = s.cfg := rfl
@[simp] theorem setLinkErr_keystore (c : Cause) (s : State) : (setLinkErr c s).keystore = s.keystore := rfl
@[simp] theorem setLinkErr_blockstore (c : Cause) (s : State) : (setLinkErr c s).blockstore = s.blockstore := rfl
@[simp] theorem setLinkErr_perm (c : Cause) (s : State) : (setLinkErr c s).perm = s.perm := rfl
@[simp] theorem setLinkErr_sidx (c : Cause) (s : State) : (setLinkErr c s).sidx = s.sidx := rfl
@[simp] theorem setLinkErr_rxbuf (c : Cause) (s : State) : (setLinkErr c s).rxbuf = s.rxbuf := rfl
@[simp] theorem setLinkErr_rxcnt (c : Cause) (s : State) : (setLinkErr c s).rxcnt = s.rxcnt := rfl
@[simp] theorem setLinkErr_tlast (c : Cause) (s : State) : (setLinkErr c s).tlast = s.tlast := rfl
@[simp] theorem setLinkErr_txcrc (c : Cause) (s : State) : (setLinkErr c s).txcrc = s.txcrc := rfl
@[simp] theorem setLinkErr_dstate (c : Cause) (s : State) : (setLinkErr c s).dstate = s.dstate := rfl
@[simp] theorem setLinkErr_curop (c : Cause) (s : State) : (setLinkErr c s).curop = s.curop := rfl
@[simp] theorem setLinkErr_status (c : Cause) (s : State) : (setLinkErr c s).status = withLinkErr s.status c.code :=
  rfl
@[simp] theorem setLinkErr_decLayer (c : Cause) (s : State) : (setLinkErr c s).decLayer = s.decLayer := rfl
@[simp] theorem setLinkErr_link (c : Cause) (s : State) : (setLinkErr c s).link = s.link := rfl
@[simp] theorem setLinkErr_now (c : Cause) (s : State) : (setLinkErr c s).now = s.now := rfl
@[simp] theorem setLinkErr_rng (c : Cause) (s : State) : (setLinkErr c s).rng = s.rng := rfl
@[simp] theorem setLinkErr_draws (c : Cause) (s : State) : (setLinkErr c s).draws = s.draws := rfl
@[simp] theorem setLinkErr_calls (c : Cause) (s : State) : (setLinkErr c s).calls = s.calls := rfl

/-! ### `clearLinkErr` -/

@[simp] theorem clearLinkErr_cfg (s : State) : (clearLinkErr s).cfg = s.cfg := rfl
@[simp] theorem clearLinkErr_keystore (s : State) : (clearLinkErr s).keystore = s.keystore := rfl
@[simp] theorem clearLinkErr_blockstore (s : State) : (clearLinkErr s).blockstore = s.blockstore := rfl
@[simp] theorem clearLinkErr_perm (s : State) : (clearLinkErr s).perm = s.perm := rfl
@[simp] theorem clearLinkErr_sidx (s : State) : (clearLinkErr s).sidx = s.sidx := rfl
@[simp] theorem clearLinkErr_rxbuf (s : State) : (clearLinkErr s).rxbuf = s.rxbuf := rfl
@[simp] theorem clearLinkErr_rxcnt (s : State) : (clearLinkErr s).rxcnt = s.rxcnt := rfl
@[simp] theorem clearLinkErr_tlast (s : State) : (clearLinkErr s).tlast = s.tlast := rfl
@[simp] theorem clearLinkErr_txcrc (s : State) : (clearLinkErr s).txcrc = s.txcrc := rfl
@[simp] theorem clearLinkErr_dstate (s : State) : (clearLinkErr s).dstate = s.dstate := rfl
@[simp] theorem clearLinkErr_curop (s : State) : (clearLinkErr s).curop = s.curop := rfl
@[simp] theorem clearLinkErr_status (s : State) : (clearLinkErr s).status = withLinkErr s.status 0 := rfl
@[simp] theorem clearLinkErr_decLayer (s : State) : (clearLinkErr s).decLayer = s.decLayer := rfl
@[simp] theorem clearLinkErr_link (s : State) : (clearLinkErr s).link = s.link := rfl
@[simp] theorem clearLinkErr_now (s : State) : (clearLinkErr s).now = s.now := rfl
@[simp] theorem clearLinkErr_rng (s : State) : (clearLinkErr s).rng = s.rng := rfl
@[simp] theorem clearLinkErr_draws (s : State) : (clearLinkErr s).draws = s.draws := rfl
@[simp] theorem clearLinkErr_calls (s : State) : (clearLinkErr s).calls = s.calls := rfl

/-! ### `keySet` -/

@[simp] theorem keySet_cfg (a : Byte) (k r : Key) (s : State) : (keySet a k r s).cfg = s.cfg := rfl
@[simp] theorem keySet_keystore (a : Byte) (k r : Key) (s : State) : (keySet a k r s).keystore = s.keystore.writeRange (slotBase a) (k.toList ++ r.toList) :=
  rfl
@[simp] theorem keySet_blockstore (a : Byte) (k r : Key) (s : State) : (keySet a k r s).blockstore = s.blockstore :=
  rfl
@[simp] theorem keySet_perm (a : Byte) (k r : Key) (s : State) : (keySet a k r s).perm = s.perm := rfl
@[simp] theorem keySet_sidx (a : Byte) (k r : Key) (s : State) : (keySet a k r s).sidx = s.sidx := rfl
@[simp] theorem keySet_rxbuf (a : Byte) (k r : Key) (s : State) : (keySet a k r s).rxbuf = s.rxbuf := rfl
@[simp] theorem keySet_rxcnt (a : Byte) (k r : Key) (s : State) : (keySet a k r s).rxcnt = s.rxcnt := rfl
@[simp] theorem keySet_tlast (a : Byte) (k r : Key) (s : State) : (keySet a k r s).tlast = s.tlast := rfl
@[simp] theorem keySet_txcrc (a : Byte) (k r : Key) (s : State) : (keySet a k r s).txcrc = s.txcrc := rfl
@[simp] theorem keySet_dstate (a : Byte) (k r : Key) (s : State) : (keySet a k r s).dstate = s.dstate := rfl
@[simp] theorem keySet_curop (a : Byte) (k r : Key) (s : State) : (keySet a k r s).curop = s.curop := rfl
@[simp] theorem keySet_status (a : Byte) (k r : Key) (s : State) : (keySet a k r s).status = s.status := rfl
@[simp] theorem keySet_decLayer (a : Byte) (k r : Key) (s : State) : (keySet a k r s).decLayer = s.decLayer := rfl
@[simp] theorem keySet_link (a : Byte) (k r : Key) (s : State) : (keySet a k r s).link = s.link := rfl
@[simp] theorem keySet_now (a : Byte) (k r : Key) (s : State) : (keySet a k r s).now = s.now := rfl
@[simp] theorem keySet_rng (a : Byte) (k r : Key) (s : State) : (keySet a k r s).rng = s.rng := rfl
@[simp] theorem keySet_draws (a : Byte) (k r : Key) (s : State) : (keySet a k r s).draws = s.draws := rfl
@[simp] theorem keySet_calls (a : Byte) (k r : Key) (s : State) : (keySet a k r s).calls = s.calls ++ [.keySet a k r] :=
  rfl

/-! ### `blkSet` -/

@[simp] theorem blkSet_cfg (a : Word) (d : Record) (s : State) : (blkSet a d s).cfg = s.cfg := rfl
@[simp] theorem blkSet_keystore (a : Word) (d : Record) (s : State) : (blkSet a d s).keystore = s.keystore := rfl
@[simp] theorem blkSet_blockstore (a : Word) (d : Record) (s : State) : (blkSet a d s).blockstore = s.blockstore.writeRange (recordBase a) d.toList :=
  rfl
@[simp] theorem blkSet_perm (a : Word) (d : Record) (s : State) : (blkSet a d s).perm = s.perm := rfl
@[simp] theorem blkSet_sidx (a : Word) (d : Record) (s : State) : (blkSet a d s).sidx = s.sidx := rfl
@[simp] theorem blkSet_rxbuf (a : Word) (d : Record) (s : State) : (blkSet a d s).rxbuf = s.rxbuf := rfl
@[simp] theorem blkSet_rxcnt (a : Word) (d : Record) (s : State) : (blkSet a d s).rxcnt = s.rxcnt := rfl
@[simp] theorem blkSet_tlast (a : Word) (d : Record) (s : State) : (blkSet a d s).tlast = s.tlast := rfl
@[simp] theorem blkSet_txcrc (a : Word) (d : Record) (s : State) : (blkSet a d s).txcrc = s.txcrc := rfl
@[simp] theorem blkSet_dstate (a : Word) (d : Record) (s : State) : (blkSet a d s).dstate = s.dstate := rfl
@[simp] theorem blkSet_curop (a : Word) (d : Record) (s : State) : (blkSet a d s).curop = s.curop := rfl
@[simp] theorem blkSet_status (a : Word) (d : Record) (s : State) : (blkSet a d s).status = s.status := rfl
@[simp] theorem blkSet_decLayer (a : Word) (d : Record) (s : State) : (blkSet a d s).decLayer = s.decLayer := rfl
@[simp] theorem blkSet_link (a : Word) (d : Record) (s : State) : (blkSet a d s).link = s.link := rfl
@[simp] theorem blkSet_now (a : Word) (d : Record) (s : State) : (blkSet a d s).now = s.now := rfl
@[simp] theorem blkSet_rng (a : Word) (d : Record) (s : State) : (blkSet a d s).rng = s.rng := rfl
@[simp] theorem blkSet_draws (a : Word) (d : Record) (s : State) : (blkSet a d s).draws = s.draws := rfl
@[simp] theorem blkSet_calls (a : Word) (d : Record) (s : State) : (blkSet a d s).calls = s.calls ++ [.blkSet a d] :=
  rfl

/-! ### `decClear` -/

@[simp] theorem decClear_cfg (s : State) : (decClear s).cfg = s.cfg := rfl
@[simp] theorem decClear_keystore (s : State) : (decClear s).keystore = s.keystore := rfl
@[simp] theorem decClear_blockstore (s : State) : (decClear s).blockstore = s.blockstore := rfl
@[simp] theorem decClear_perm (s : State) : (decClear s).perm = s.perm := rfl
@[simp] theorem decClear_sidx (s : State) : (decClear s).sidx = s.sidx := rfl
@[simp] theorem decClear_rxbuf (s : State) : (decClear s).rxbuf = s.rxbuf := rfl
@[simp] theorem decClear_rxcnt (s : State) : (decClear s).rxcnt = s.rxcnt := rfl
@[simp] theorem decClear_tlast (s : State) : (decClear s).tlast = s.tlast := rfl
@[simp] theorem decClear_txcrc (s : State) : (decClear s).txcrc = s.txcrc := rfl
@[simp] theorem decClear_dstate (s : State) : (decClear s).dstate = s.dstate := rfl
@[simp] theorem decClear_curop (s : State) : (decClear s).curop = s.curop := rfl
@[simp] theorem decClear_status (s : State) : (decClear s).status = s.status := rfl
@[simp] theorem decClear_decLayer (s : State) : (decClear s).decLayer = .cleared := rfl
@[simp] theorem decClear_link (s : State) : (decClear s).link = s.link := rfl
@[simp] theorem decClear_now (s : State) : (decClear s).now = s.now := rfl
@[simp] theorem decClear_rng (s : State) : (decClear s).rng = s.rng := rfl
@[simp] theorem decClear_draws (s : State) : (decClear s).draws = s.draws := rfl
@[simp] theorem decClear_calls (s : State) : (decClear s).calls = s.calls ++ [.decClear] := rfl

/-! ### `returnIdle` -/

@[simp] theorem returnIdle_cfg (s : State) : (returnIdle s).cfg = s.cfg := rfl
@[simp] theorem returnIdle_keystore (s : State) : (returnIdle s).keystore = s.keystore := rfl
@[simp] theorem returnIdle_blockstore (s : State) : (returnIdle s).blockstore = s.blockstore := rfl
@[simp] theorem returnIdle_perm (s : State) : (returnIdle s).perm = s.perm := rfl
@[simp] theorem returnIdle_sidx (s : State) : (returnIdle s).sidx = s.sidx := rfl
@[simp] theorem returnIdle_rxbuf (s : State) : (returnIdle s).rxbuf = s.rxbuf := rfl
@[simp] theorem returnIdle_rxcnt (s : State) : (returnIdle s).rxcnt = s.rxcnt := rfl
@[simp] theorem returnIdle_tlast (s : State) : (returnIdle s).tlast = s.tlast := rfl
@[simp] theorem returnIdle_txcrc (s : State) : (returnIdle s).txcrc = s.txcrc := rfl
@[simp] theorem returnIdle_dstate (s : State) : (returnIdle s).dstate = .idle := rfl
@[simp] theorem returnIdle_curop (s : State) : (returnIdle s).curop = s.curop := rfl
@[simp] theorem returnIdle_status (s : State) : (returnIdle s).status = s.status := rfl
@[simp] theorem returnIdle_decLayer (s : State) : (returnIdle s).decLayer = s.decLayer := rfl
@[simp] theorem returnIdle_link (s : State) : (returnIdle s).link = s.link := rfl
@[simp] theorem returnIdle_now (s : State) : (returnIdle s).now = s.now := rfl
@[simp] theorem returnIdle_rng (s : State) : (returnIdle s).rng = s.rng := rfl
@[simp] theorem returnIdle_draws (s : State) : (returnIdle s).draws = s.draws := rfl
@[simp] theorem returnIdle_calls (s : State) : (returnIdle s).calls = s.calls := rfl

/-! ### `enterTransaction` -/

@[simp] theorem enterTransaction_cfg (n : Nat) (s : State) : (enterTransaction n s).cfg = s.cfg :=
  by unfold enterTransaction; split <;> rfl
@[simp] theorem enterTransaction_keystore (n : Nat) (s : State) : (enterTransaction n s).keystore = s.keystore :=
  by unfold enterTransaction; split <;> rfl
@[simp] theorem enterTransaction_blockstore (n : Nat) (s : State) : (enterTransaction n s).blockstore = s.blockstore :=
  by unfold enterTransaction; split <;> rfl
@[simp] theorem enterTransaction_perm (n : Nat) (s : State) : (enterTransaction n s).perm = s.perm :=
  by unfold enterTransaction; split <;> rfl
@[simp] theorem enterTransaction_sidx (n : Nat) (s : State) : (enterTransaction n s).sidx = s.sidx :=
  by unfold enterTransaction; split <;> rfl
@[simp] theorem enterTransaction_rxbuf (n : Nat) (s : State) : (enterTransaction n s).rxbuf = s.rxbuf :=
  by unfold enterTransaction; split <;> rfl
@[simp] theorem enterTransaction_rxcnt (n : Nat) (s : State) : (enterTransaction n s).rxcnt = s.rxcnt :=
  by unfold enterTransaction; split <;> rfl
@[simp] theorem enterTransaction_tlast (n : Nat) (s : State) : (enterTransaction n s).tlast = s.tlast :=
  by unfold enterTransaction; split <;> rfl
@[simp] theorem enterTransaction_txcrc (n : Nat) (s : State) : (enterTransaction n s).txcrc = s.txcrc :=
  by unfold enterTransaction; split <;> rfl
@[simp] theorem enterTransaction_dstate (n : Nat) (s : State) : (enterTransaction n s).dstate = if n = 256 then .lookup else s.dstate :=
  by unfold enterTransaction; split <;> rfl
@[simp] theorem enterTransaction_curop (n : Nat) (s : State) : (enterTransaction n s).curop = if n = 256 then s.curop else s.rxbuf[0] :=
  by unfold enterTransaction; split <;> rfl
@[simp] theorem enterTransaction_status (n : Nat) (s : State) : (enterTransaction n s).status = s.status :=
  by unfold enterTransaction; split <;> rfl
@[simp] theorem enterTransaction_decLayer (n : Nat) (s : State) : (enterTransaction n s).decLayer = s.decLayer :=
  by unfold enterTransaction; split <;> rfl
@[simp] theorem enterTransaction_link (n : Nat) (s : State) : (enterTransaction n s).link = s.link :=
  by unfold enterTransaction; split <;> rfl
@[simp] theorem enterTransaction_now (n : Nat) (s : State) : (enterTransaction n s).now = s.now :=
  by unfold enterTransaction; split <;> rfl
@[simp] theorem enterTransaction_rng (n : Nat) (s : State) : (enterTransaction n s).rng = s.rng :=
  by unfold enterTransaction; split <;> rfl
@[simp] theorem enterTransaction_draws (n : Nat) (s : State) : (enterTransaction n s).draws = s.draws :=
  by unfold enterTransaction; split <;> rfl
@[simp] theorem enterTransaction_calls (n : Nat) (s : State) : (enterTransaction n s).calls = s.calls :=
  by unfold enterTransaction; split <;> rfl

/-! ### `rebuildIndex` -/

@[simp] theorem rebuildIndex_cfg (s : State) : (rebuildIndex s).cfg = s.cfg := rfl
@[simp] theorem rebuildIndex_keystore (s : State) : (rebuildIndex s).keystore = s.keystore := rfl
@[simp] theorem rebuildIndex_blockstore (s : State) : (rebuildIndex s).blockstore = s.blockstore := rfl
@[simp] theorem rebuildIndex_perm (s : State) : (rebuildIndex s).perm = s.perm := rfl
@[simp] theorem rebuildIndex_rxbuf (s : State) : (rebuildIndex s).rxbuf = s.rxbuf := rfl
@[simp] theorem rebuildIndex_rxcnt (s : State) : (rebuildIndex s).rxcnt = s.rxcnt := rfl
@[simp] theorem rebuildIndex_tlast (s : State) : (rebuildIndex s).tlast = s.tlast := rfl
@[simp] theorem rebuildIndex_txcrc (s : State) : (rebuildIndex s).txcrc = s.txcrc := rfl
@[simp] theorem rebuildIndex_dstate (s : State) : (rebuildIndex s).dstate = s.dstate := rfl
@[simp] theorem rebuildIndex_curop (s : State) : (rebuildIndex s).curop = s.curop := rfl
@[simp] theorem rebuildIndex_status (s : State) : (rebuildIndex s).status = s.status := rfl
@[simp] theorem rebuildIndex_decLayer (s : State) : (rebuildIndex s).decLayer = s.decLayer := rfl
@[simp] theorem rebuildIndex_link (s : State) : (rebuildIndex s).link = s.link := rfl
@[simp] theorem rebuildIndex_now (s : State) : (rebuildIndex s).now = s.now := rfl
@[simp] theorem rebuildIndex_rng (s : State) : (rebuildIndex s).rng = s.rng := rfl
@[simp] theorem rebuildIndex_draws (s : State) : (rebuildIndex s).draws = s.draws + 1 := rfl
@[simp] theorem rebuildIndex_calls (s : State) : (rebuildIndex s).calls = s.calls := rfl

/-! ### `send` -/

@[simp] theorem send_cfg (p : List Byte) (s : State) : (send p s).cfg = s.cfg := rfl
@[simp] theorem send_keystore (p : List Byte) (s : State) : (send p s).keystore = s.keystore := rfl
@[simp] theorem send_blockstore (p : List Byte) (s : State) : (send p s).blockstore = s.blockstore := rfl
@[simp] theorem send_perm (p : List Byte) (s : State) : (send p s).perm = s.perm := rfl
@[simp] theorem send_sidx (p : List Byte) (s : State) : (send p s).sidx = s.sidx := rfl
@[simp] theorem send_rxbuf (p : List Byte) (s : State) : (send p s).rxbuf = s.rxbuf := rfl
@[simp] theorem send_rxcnt (p : List Byte) (s : State) : (send p s).rxcnt = s.rxcnt := rfl
@[simp] theorem send_tlast (p : List Byte) (s : State) : (send p s).tlast = s.tlast := rfl
@[simp] theorem send_txcrc (p : List Byte) (s : State) : (send p s).txcrc = crc16 s.cfg.crc p := rfl
@[simp] theorem send_dstate (p : List Byte) (s : State) : (send p s).dstate = s.dstate := rfl
@[simp] theorem send_curop (p : List Byte) (s : State) : (send p s).curop = s.curop := rfl
@[simp] theorem send_status (p : List Byte) (s : State) : (send p s).status = s.status := rfl
@[simp] theorem send_decLayer (p : List Byte) (s : State) : (send p s).decLayer = s.decLayer := rfl
@[simp] theorem send_link (p : List Byte) (s : State) : (send p s).link = s.link := rfl
@[simp] theorem send_now (p : List Byte) (s : State) : (send p s).now = s.now := rfl
@[simp] theorem send_rng (p : List Byte) (s : State) : (send p s).rng = s.rng := rfl
@[simp] theorem send_draws (p : List Byte) (s : State) : (send p s).draws = s.draws := rfl
@[simp] theorem send_calls (p : List Byte) (s : State) : (send p s).calls = s.calls ++ frameCalls s.cfg.crc p := rfl

/-! ### `sendByte` -/

@[simp] theorem sendByte_cfg (b : Byte) (s : State) : (sendByte b s).cfg = s.cfg := rfl
@[simp] theorem sendByte_keystore (b : Byte) (s : State) : (sendByte b s).keystore = s.keystore := rfl
@[simp] theorem sendByte_blockstore (b : Byte) (s : State) : (sendByte b s).blockstore = s.blockstore := rfl
@[simp] theorem sendByte_perm (b : Byte) (s : State) : (sendByte b s).perm = s.perm := rfl
@[simp] theorem sendByte_sidx (b : Byte) (s : State) : (sendByte b s).sidx = s.sidx := rfl
@[simp] theorem sendByte_rxbuf (b : Byte) (s : State) : (sendByte b s).rxbuf = s.rxbuf := rfl
@[simp] theorem sendByte_rxcnt (b : Byte) (s : State) : (sendByte b s).rxcnt = s.rxcnt := rfl
@[simp] theorem sendByte_tlast (b : Byte) (s : State) : (sendByte b s).tlast = s.tlast := rfl
@[simp] theorem sendByte_txcrc (b : Byte) (s : State) : (sendByte b s).txcrc = crc16 s.cfg.crc [b] := rfl
@[simp] theorem sendByte_dstate (b : Byte) (s : State) : (sendByte b s).dstate = s.dstate := rfl
@[simp] theorem sendByte_curop (b : Byte) (s : State) : (sendByte b s).curop = s.curop := rfl
@[simp] theorem sendByte_status (b : Byte) (s : State) : (sendByte b s).status = s.status := rfl
@[simp] theorem sendByte_decLayer (b : Byte) (s : State) : (sendByte b s).decLayer = s.decLayer := rfl
@[simp] theorem sendByte_link (b : Byte) (s : State) : (sendByte b s).link = s.link := rfl
@[simp] theorem sendByte_now (b : Byte) (s : State) : (sendByte b s).now = s.now := rfl
@[simp] theorem sendByte_rng (b : Byte) (s : State) : (sendByte b s).rng = s.rng := rfl
@[simp] theorem sendByte_draws (b : Byte) (s : State) : (sendByte b s).draws = s.draws := rfl
@[simp] theorem sendByte_calls (b : Byte) (s : State) : (sendByte b s).calls = s.calls ++ frameCalls s.cfg.crc [b] :=
  rfl

/-! ### `resetBlock` -/

@[simp] theorem resetBlock_cfg (s : State) : (resetBlock s).cfg = s.cfg := by simp [resetBlock]
@[simp] theorem resetBlock_keystore (s : State) : (resetBlock s).keystore = s.keystore := by simp [resetBlock]
@[simp] theorem resetBlock_blockstore (s : State) : (resetBlock s).blockstore = s.blockstore := by simp [resetBlock]
@[simp] theorem resetBlock_perm (s : State) : (resetBlock s).perm = State.reset.perm := rfl
@[simp] theorem resetBlock_rxbuf (s : State) : (resetBlock s).rxbuf = State.reset.rxbuf := rfl
@[simp] theorem resetBlock_rxcnt (s : State) : (resetBlock s).rxcnt = 0 := rfl
@[simp] theorem resetBlock_tlast (s : State) : (resetBlock s).tlast = State.reset.tlast := rfl
@[simp] theorem resetBlock_txcrc (s : State) : (resetBlock s).txcrc = State.reset.txcrc := rfl
@[simp] theorem resetBlock_dstate (s : State) : (resetBlock s).dstate = .idle := rfl
@[simp] theorem resetBlock_curop (s : State) : (resetBlock s).curop = State.reset.curop := rfl
@[simp] theorem resetBlock_status (s : State) : (resetBlock s).status = 0 := rfl
@[simp] theorem resetBlock_decLayer (s : State) : (resetBlock s).decLayer = .cleared := rfl
@[simp] theorem resetBlock_link (s : State) : (resetBlock s).link = s.link := by simp [resetBlock]
@[simp] theorem resetBlock_now (s : State) : (resetBlock s).now = s.now := by simp [resetBlock]
@[simp] theorem resetBlock_rng (s : State) : (resetBlock s).rng = s.rng := by simp [resetBlock]
@[simp] theorem resetBlock_draws (s : State) : (resetBlock s).draws = s.draws + 1 := by simp [resetBlock]
@[simp] theorem resetBlock_calls (s : State) : (resetBlock s).calls = s.calls ++ [.decClear] := by simp [resetBlock]
/-- The one field of the reset that depends on more than itself: the store and the free choice (R190, R114). -/
theorem resetBlock_sidx (s : State) :
    (resetBlock s).sidx =
      sortedIndex { decClear s with perm := State.reset.perm } (Config.tieRank s.draws) := by
  simp [resetBlock, rebuildIndex]

end Sys2Proof.Machine
end

