-- ==== Sys2Proof/Laws/Codec.lean ====
section
/-! SUPPORT. The laws of the Codec: what the checksum loop, the receive loop, a `Receive` and a `ReceiveOperand` can
do. -/

namespace Sys2Proof.Machine

@[simp] theorem demand_eq {α : Type} (n : Nat) (k : Nat → α) : demand n k = k n := by
  cases n <;> rfl

theorem crcLoop_eq_foldl (p : CrcParams) (l : List Byte) (c : Word) : crcLoop p l c = l.foldl (crcByte p) c := by
  induction l generalizing c with
  | nil => rfl
  | cons b l ih => simp [crcLoop, ih]

@[simp] theorem crcBytes_length (c : Word) : (crcBytes c).length = 2 := rfl

@[simp] theorem packet_length (p : CrcParams) (l : List Byte) : (packet p l).length = l.length + 2 := by
  simp [packet]

/-! ### Byte sequences and the receive buffer -/

theorem takeD_of_length {l : List Byte} {n : Nat} (h : l.length = n) : l.takeD n 0 = l := by
  induction l generalizing n with
  | nil => subst h; rfl
  | cons b l ih => subst h; simpa using ih rfl

theorem toBytes_toList {l : List Byte} {n : Nat} (h : l.length = n) : (toBytes n l).toList = l := by
  simpa [toBytes, Vector.toList] using takeD_of_length h

@[simp] theorem toBytes_of_toList {n : Nat} (v : Bytes n) : toBytes n v.toList = v := by
  apply Vector.toList_inj.mp
  exact toBytes_toList (by simp)

theorem fillRxbuf_toList (old : Bytes 1028) {l : List Byte} (h : l.length ≤ 1028) :
    (fillRxbuf old l).toList = l ++ old.toList.drop l.length :=
  toBytes_toList (by simp; omega)

@[simp] theorem fillRxbuf_nil (old : Bytes 1028) : fillRxbuf old [] = old := by
  simp [fillRxbuf]

/-! ### The receive loop -/

/-- No scan accepts more than `maxTot` bytes (R107). -/
theorem scan_bytes_le (m : Nat) (link : List LinkEvent) (cnt : Nat) (acc : List Byte) (tl now : Nat)
    (h : acc.length = cnt) (hm : cnt ≤ m) : (scan m link cnt acc tl now).bytes.length ≤ m := by
  induction link generalizing cnt acc tl now with
  | nil => simp [scan]; omega
  | cons e link ih =>
    simp only [scan, demand_eq]
    split
    · split
      · simp; omega
      · exact ih _ _ _ _ (by simp [h]) (by omega)
    · simp; omega
    · simp; omega
    · split
      · simp; omega
      · exact ih _ _ _ _ h hm

/-- The clock never goes back, and what is left on the link is the end of what was there. -/
theorem scan_progress (m : Nat) (link : List LinkEvent) (cnt : Nat) (acc : List Byte) (tl now : Nat) :
    now ≤ (scan m link cnt acc tl now).now ∧ (scan m link cnt acc tl now).rest <:+ link := by
  induction link generalizing cnt acc tl now with
  | nil => simp [scan]
  | cons e link ih =>
    simp only [scan, demand_eq]
    split
    · split
      · simp
      · exact ⟨(Nat.le_add_right _ _).trans (ih ..).1, (ih ..).2.trans (List.suffix_cons _ _)⟩
    · simp
    · simp
    · split
      · simp
      · exact ⟨(Nat.le_add_right _ _).trans (ih ..).1, (ih ..).2.trans (List.suffix_cons _ _)⟩

/-- A scan over answers that carry the bytes `l` in time, as far as there is room: it accepts them and goes on. -/
theorem scan_carried (m : Nat) (body link : List LinkEvent) (l : List Byte) (cnt : Nat) (acc : List Byte)
    (tl now gap : Nat) (hs : symbolsIn body = l.map LinkAns.byte) (ht : timely gap body = true)
    (hg : now - tl = gap) (hl : tl ≤ now) (hm : cnt + l.length ≤ m) :
    ∃ tl' now', tl' ≤ now' ∧ now ≤ now' ∧ (l = [] → tl' = tl) ∧
      scan m (body ++ link) cnt acc tl now = scan m link (cnt + l.length) (l.reverse ++ acc) tl' now' := by
  induction body generalizing l cnt acc tl now gap with
  | nil =>
    have : l = [] := by simpa [symbolsIn] using hs
    subst this
    exact ⟨tl, now, hl, le_rfl, fun _ => rfl, by simp⟩
  | cons e body ih =>
    obtain ⟨dt, ans⟩ := e
    cases ans with
    | noData =>
      simp only [timely, if_pos, Bool.and_eq_true, decide_eq_true_eq] at ht
      have hs' : symbolsIn body = l.map LinkAns.byte := by simpa [symbolsIn] using hs
      obtain ⟨tl', now', h1, h2, h3, h4⟩ :=
        ih l cnt acc tl (now + dt) (gap + dt) hs' ht.2 (by omega) (by omega) hm
      refine ⟨tl', now', h1, by omega, h3, ?_⟩
      have : ¬ tInact ≤ now + dt - tl := by omega
      simp [scan, this, h4]
    | byte b =>
      cases l with
      | nil => simp [symbolsIn] at hs
      | cons b' l =>
        have hb : b = b' ∧ symbolsIn body = l.map LinkAns.byte := by simpa [symbolsIn] using hs
        obtain ⟨rfl, hs'⟩ := hb
        simp only [timely, reduceCtorEq, if_false] at ht
        simp only [List.length_cons] at hm
        obtain ⟨tl', now', h1, h2, -, h4⟩ :=
          ih l (cnt + 1) (b :: acc) (now + dt) (now + dt) 0 hs' ht (by omega) le_rfl (by omega)
        refine ⟨tl', now', h1, by omega, by simp, ?_⟩
        have hc : ¬ cnt = m := by omega
        have e1 : cnt + (l.length + 1) = cnt + 1 + l.length := by omega
        simp [scan, hc, h4, e1]
    | eof =>
      cases l with
      | nil => simp [symbolsIn] at hs
      | cons b' l => simp [symbolsIn] at hs
    | err =>
      cases l with
      | nil => simp [symbolsIn] at hs
      | cons b' l => simp [symbolsIn] at hs

@[simp] theorem symbolsIn_arriving_bytes (l : List Byte) :
    symbolsIn (arriving (l.map LinkAns.byte)) = l.map LinkAns.byte := by
  induction l with
  | nil => rfl
  | cons b l ih => simpa [symbolsIn, arriving] using ih

@[simp] theorem timely_arriving_bytes (gap : Nat) (l : List Byte) :
    timely gap (arriving (l.map LinkAns.byte)) = true := by
  induction l generalizing gap with
  | nil => rfl
  | cons b l ih => simpa [timely, arriving] using ih 0

/-- A frame whose symbols are all available at once is delivered. -/
theorem delivers_arriving (c : Config) (payload : List Byte) :
    Delivers c payload (arriving (frame c.crc payload)) :=
  ⟨arriving ((packet c.crc payload).map LinkAns.byte), 0, by simp [arriving, frame], by simp, by simp⟩

theorem startsAtOnce_arriving (c : Config) (payload : List Byte) :
    StartsAtOnce (arriving (frame c.crc payload)) := by
  cases h : packet c.crc payload with
  | nil =>
    have := packet_length c.crc payload
    simp [h] at this
  | cons b l => exact ⟨⟨0, .byte b⟩, arriving (l.map LinkAns.byte ++ [.eof]), by simp [frame, h, arriving], by simp⟩

/-! ### Receive -/

/-- What the link cannot change: everything but `RXBUF`, `RXCNT`, `TLAST`, `STATUS`, the decoding layer, the link
itself, the clock, the free choices and the output calls; `DSTATE` is apart. -/
structure LinkOnly (s t : State) : Prop where
  cfg        : t.cfg = s.cfg
  keystore   : t.keystore = s.keystore
  blockstore : t.blockstore = s.blockstore
  perm       : t.perm = s.perm
  sidx       : t.sidx = s.sidx
  txcrc      : t.txcrc = s.txcrc
  curop      : t.curop = s.curop
  rng        : t.rng = s.rng

theorem LinkOnly.trans {s t u : State} (h : LinkOnly s t) (k : LinkOnly t u) : LinkOnly s u :=
  ⟨k.cfg.trans h.cfg, k.keystore.trans h.keystore, k.blockstore.trans h.blockstore, k.perm.trans h.perm,
    k.sidx.trans h.sidx, k.txcrc.trans h.txcrc, k.curop.trans h.curop, k.rng.trans h.rng⟩

theorem commitScan_linkOnly (r : Scan) (s : State) :
    LinkOnly s (commitScan r s) ∧ (commitScan r s).dstate = s.dstate ∧ (commitScan r s).status = s.status ∧
      (commitScan r s).calls = s.calls := by
  unfold commitScan
  dsimp only
  split <;> exact ⟨⟨rfl, rfl, rfl, rfl, rfl, rfl, rfl, rfl⟩, rfl, rfl, rfl⟩

@[simp] theorem commitScan_rxcnt (r : Scan) (s : State) : (commitScan r s).rxcnt = r.bytes.length := by
  unfold commitScan; dsimp only; split <;> rfl

@[simp] theorem commitScan_rxbuf (r : Scan) (s : State) : (commitScan r s).rxbuf = fillRxbuf s.rxbuf r.bytes := by
  unfold commitScan; dsimp only; split <;> rfl

@[simp] theorem commitScan_link (r : Scan) (s : State) : (commitScan r s).link = r.rest := by
  unfold commitScan; dsimp only; split <;> rfl

theorem commitScan_now (r : Scan) (s : State) : r.now ≤ (commitScan r s).now := by
  unfold commitScan
  dsimp only
  split
  · exact (Nat.le_max_left _ _).trans (Nat.le_add_right _ _)
  · exact le_rfl

/-- The three ways a frame attempt ends: accepted, or aborted with one cause. -/
theorem endReceive_cases (lenP lenA : Nat) (fin : ScanEnd) (s : State) :
    (∃ c, endReceive lenP lenA fin s = raiseAbort c s) ∨
    (fin = .eof ∧ endReceive lenP lenA fin s = (decClear s, .ok (s.rxcnt - 2)) ∧
      (s.rxcnt = lenP + 2 ∨ lenA ≠ 0 ∧ s.rxcnt = lenA + 2) ∧
      crc16 s.cfg.crc (rxSlice s 0 (s.rxcnt - 2)) = rxChecksum s (s.rxcnt - 2)) := by
  cases fin with
  | eof =>
    simp only [endReceive, acceptFrame]
    split
    · exact .inl ⟨_, rfl⟩
    · split
      · exact .inl ⟨_, rfl⟩
      · refine .inr ⟨by simp, rfl, by omega, by simpa using ‹¬ _ ≠ _›⟩
  | err => exact .inl ⟨_, rfl⟩
  | overrun => exact .inl ⟨_, rfl⟩
  | timeout => exact .inl ⟨_, rfl⟩
  | silence => exact .inl ⟨_, rfl⟩

/-- Everything a `Receive` can do: an idle link, an abort, or an accepted frame. -/
theorem receive_cases (lenP lenA : Nat) (s : State) :
    (∃ link dt, (s.link = [] ∧ link = [] ∧ dt = 0 ∨ ∃ e, s.link = e :: link ∧ e.ans = .noData ∧ dt = e.dt) ∧
      receive lenP lenA s = ({ s with rxcnt := 0, link := link, now := s.now + dt }, .noFrame)) ∨
    (∃ r, r = scan (maxTot lenP lenA) s.link 0 [] s.tlast s.now ∧
      ((∃ c, receive lenP lenA s = raiseAbort c (commitScan r s)) ∨
       (receive lenP lenA s = (decClear (commitScan r s), .ok (r.bytes.length - 2)) ∧
        (r.bytes.length = lenP + 2 ∨ lenA ≠ 0 ∧ r.bytes.length = lenA + 2) ∧
        crc16 s.cfg.crc (rxSlice (commitScan r s) 0 (r.bytes.length - 2)) =
          rxChecksum (commitScan r s) (r.bytes.length - 2)))) := by
  unfold receive
  split
  · next h =>
    exact .inl ⟨[], 0, .inl ⟨h, rfl, rfl⟩, by simp [← h]⟩
  · next e link h =>
    split
    · next hn => exact .inl ⟨link, e.dt, .inr ⟨e, h, hn, rfl⟩, rfl⟩
    · refine .inr ⟨_, rfl, ?_⟩
      simp only [h]
      generalize scan (maxTot lenP lenA) (e :: link) 0 [] s.tlast s.now = r
      rcases endReceive_cases lenP lenA r.fin (commitScan r s) with hc | ⟨_, h1, h2, h3⟩
      · exact .inl hc
      · rw [commitScan_rxcnt] at h1 h2 h3
        rw [(commitScan_linkOnly r s).1.cfg] at h3
        exact .inr ⟨h1, h2, h3⟩

theorem receive_linkOnly (lenP lenA : Nat) (s : State) :
    LinkOnly s (receive lenP lenA s).1 ∧ (receive lenP lenA s).1.dstate = s.dstate := by
  rcases receive_cases lenP lenA s with ⟨link, dt, -, h⟩ | ⟨r, -, ⟨c, h⟩ | ⟨h, -, -⟩⟩ <;> rw [h]
  · exact ⟨⟨rfl, rfl, rfl, rfl, rfl, rfl, rfl, rfl⟩, rfl⟩
  · obtain ⟨k, d, -, -⟩ := commitScan_linkOnly r s
    exact ⟨⟨k.cfg, k.keystore, k.blockstore, k.perm, k.sidx, k.txcrc, k.curop, k.rng⟩, d⟩
  · obtain ⟨k, d, -, -⟩ := commitScan_linkOnly r s
    exact ⟨⟨k.cfg, k.keystore, k.blockstore, k.perm, k.sidx, k.txcrc, k.curop, k.rng⟩, d⟩

/-- The operand wait ends with a packet or a failure (R146), and touches the link's own state alone. -/
theorem awaitOperand_spec (len t0 fuel : Nat) (s : State) :
    LinkOnly s (awaitOperand len t0 fuel s).1 ∧ (awaitOperand len t0 fuel s).1.dstate = s.dstate ∧
      (awaitOperand len t0 fuel s).2 ≠ .noFrame := by
  induction fuel generalizing s with
  | zero => exact ⟨⟨rfl, rfl, rfl, rfl, rfl, rfl, rfl, rfl⟩, rfl, by simp [awaitOperand, operandTimeout]⟩
  | succ fuel ih =>
    obtain ⟨k, d⟩ := receive_linkOnly len 0 s
    unfold awaitOperand
    split
    · next s' h =>
      rw [h] at k d
      split
      · exact ⟨⟨k.cfg, k.keystore, k.blockstore, k.perm, k.sidx, k.txcrc, k.curop, k.rng⟩, d,
          by simp [operandTimeout]⟩
      · obtain ⟨k', d', n'⟩ := ih s'
        exact ⟨k.trans k', d'.trans d, n'⟩
    · next s' n h => rw [h] at k d; exact ⟨k, d, by simp⟩
    · next s' c h => rw [h] at k d; exact ⟨k, d, by simp⟩

theorem receiveOperand_spec (len : Nat) (s : State) :
    LinkOnly s (receiveOperand len s).1 ∧ (receiveOperand len s).1.dstate = .awaitingOperand ∧
      (receiveOperand len s).2 ≠ .noFrame := by
  obtain ⟨k, d, n⟩ := awaitOperand_spec len s.now s.link.length { s with dstate := .awaitingOperand }
  exact ⟨⟨k.cfg, k.keystore, k.blockstore, k.perm, k.sidx, k.txcrc, k.curop, k.rng⟩, d, n⟩

/-- A command with an operand: its body on the received operand, or the operand failure of R155. -/
theorem withOperand_cases (len : Nat) (body : State → State) (s : State) :
    (∃ t n, receiveOperand len s = (t, .ok n) ∧ withOperand len body s = body t) ∨
    (∃ t c, receiveOperand len s = (t, .fail c) ∧ withOperand len body s = operandFailed t) := by
  obtain ⟨-, -, hn⟩ := receiveOperand_spec len s
  unfold withOperand
  split
  · next t n h => exact .inl ⟨t, n, h, rfl⟩
  · next t c h => exact .inr ⟨t, c, h, rfl⟩
  · next t h => simp [h] at hn

end Sys2Proof.Machine
end

