-- ==== Sys2Proof/Laws/Flags.lean ====
section
/-! SUPPORT. The fields of `STATUS` after each of the two field updates: the written field holds the code, the other
field and the bits 7 and 3 are as before (`10_state.md` R31). -/

namespace Sys2Proof.Machine

@[simp] theorem statusOpErr_withOpErr (st : Byte) (e : OpErr) : statusOpErr (withOpErr st e.code) = e.code := by
  cases e <;> revert st <;> decide +kernel

@[simp] theorem statusLinkErr_withOpErr (st : Byte) (e : OpErr) :
    statusLinkErr (withOpErr st e.code) = statusLinkErr st := by
  cases e <;> revert st <;> decide +kernel

@[simp] theorem statusLinkErr_withLinkErr (st : Byte) (c : Cause) :
    statusLinkErr (withLinkErr st c.code) = c.code := by
  cases c <;> revert st <;> decide +kernel

@[simp] theorem statusOpErr_withLinkErr (st : Byte) (c : Cause) :
    statusOpErr (withLinkErr st c.code) = statusOpErr st := by
  cases c <;> revert st <;> decide +kernel

@[simp] theorem statusLinkErr_cleared (st : Byte) : statusLinkErr (withLinkErr st 0) = 0 := by revert st; decide +kernel

@[simp] theorem statusOpErr_cleared (st : Byte) : statusOpErr (withLinkErr st 0) = statusOpErr st := by
  revert st; decide +kernel

theorem withOpErr_reserved (st : Byte) (e : OpErr) :
    (withOpErr st e.code).getLsbD 7 = st.getLsbD 7 ∧ (withOpErr st e.code).getLsbD 3 = st.getLsbD 3 := by
  cases e <;> revert st <;> decide +kernel

theorem withLinkErr_reserved (st : Byte) (c : Cause) :
    (withLinkErr st c.code).getLsbD 7 = st.getLsbD 7 ∧ (withLinkErr st c.code).getLsbD 3 = st.getLsbD 3 := by
  cases c <;> revert st <;> decide +kernel

theorem cleared_reserved (st : Byte) :
    (withLinkErr st 0).getLsbD 7 = st.getLsbD 7 ∧ (withLinkErr st 0).getLsbD 3 = st.getLsbD 3 := by
  revert st; decide +kernel

theorem OpErr.code_le (e : OpErr) : e.code ≤ 5 := by cases e <;> decide

theorem Cause.code_le (c : Cause) : c.code ≤ 5 := by cases c <;> decide

end Sys2Proof.Machine
end

