-- ==== Sys2Proof/Laws/Memory.lean ====
section
/-! SUPPORT. The laws of the two stores: reading after writing, and that every write keeps the canonical form. -/

namespace Sys2Proof.Machine

/-! ### Reading the entries of a memory -/

theorem read_eq_blank_of_not_mem {m : Memory} {a : Nat} (h : ∀ c ∈ m, c.1 ≠ a) : m.read a = Memory.blank := by
  induction m with
  | nil => rfl
  | cons c m ih =>
    simp only [List.mem_cons, forall_eq_or_imp] at h
    simp [Memory.read, h.1, ih h.2]

theorem read_append_of_not_mem {m : Memory} (m' : Memory) {a : Nat} (h : ∀ c ∈ m, c.1 ≠ a) :
    Memory.read (m ++ m') a = m'.read a := by
  induction m with
  | nil => rfl
  | cons c m ih =>
    simp only [List.mem_cons, forall_eq_or_imp] at h
    simp [Memory.read, h.1, ih h.2]

theorem read_append_of_blank {m : Memory} (m' : Memory) {a : Nat} (h : ∀ c ∈ m', c.1 ≠ a) :
    Memory.read (m ++ m') a = m.read a := by
  induction m with
  | nil => simpa [Memory.read] using read_eq_blank_of_not_mem h
  | cons c m ih => simp [Memory.read, ih]

theorem read_filter {m : Memory} (p : Nat → Bool) {a : Nat} (h : p a = true) :
    Memory.read (m.filter fun c => p c.1) a = m.read a := by
  induction m with
  | nil => rfl
  | cons c m ih =>
    by_cases hc : p c.1 = true
    · simp [hc, Memory.read, ih]
    · have : c.1 ≠ a := by rintro rfl; exact hc h
      simp [hc, Memory.read, ih, this]

theorem read_cellsAt (l : List Byte) (base a : Nat) :
    (Memory.cellsAt base l).read a =
      if base ≤ a ∧ a < base + l.length then l.getD (a - base) Memory.blank else Memory.blank := by
  induction l generalizing base with
  | nil => simp [Memory.cellsAt, Memory.read]
  | cons b l ih =>
    rcases Nat.lt_trichotomy a base with h | rfl | h
    · unfold Memory.cellsAt
      have h1 : ¬ base ≤ a := by omega
      have h2 : ¬ base + 1 ≤ a := by omega
      split <;> simp [Memory.read, ih, h1, h2]; omega
    · unfold Memory.cellsAt
      split <;> simp [Memory.read, *]
    · obtain ⟨k, rfl⟩ : ∃ k, a = base + 1 + k := ⟨a - (base + 1), by omega⟩
      have h1 : base + 1 + k - base = k + 1 := by omega
      have h2 : base + 1 + k - (base + 1) = k := by omega
      have h3 : ¬ base = base + 1 + k := by omega
      have h4 : (base ≤ base + 1 + k ∧ base + 1 + k < base + (l.length + 1)) ↔
          (base + 1 ≤ base + 1 + k ∧ base + 1 + k < base + 1 + l.length) := by omega
      unfold Memory.cellsAt
      split <;> simp only [Memory.read, ih, h1, h2, h3, if_false, List.length_cons, h4, List.getD_cons_succ]

theorem cellsAt_bounds (l : List Byte) (base : Nat) :
    ∀ c ∈ Memory.cellsAt base l, base ≤ c.1 ∧ c.1 < base + l.length := by
  induction l generalizing base with
  | nil => simp [Memory.cellsAt]
  | cons b l ih =>
    intro c hc
    have key : c = (base, b) ∨ c ∈ Memory.cellsAt (base + 1) l := by
      unfold Memory.cellsAt at hc
      split at hc
      · exact .inr hc
      · simpa using hc
    rcases key with rfl | hc
    · simp
    · have := ih (base + 1) c hc
      simp only [List.length_cons]
      omega

/-- A write of the bytes `l` from `base` on, and every byte after it: the bytes written, and all others as before. -/
theorem read_writeRange (m : Memory) (base : Nat) (l : List Byte) (a : Nat) :
    (m.writeRange base l).read a =
      if base ≤ a ∧ a < base + l.length then l.getD (a - base) Memory.blank else m.read a := by
  unfold Memory.writeRange
  by_cases h1 : a < base
  · rw [read_append_of_blank, read_filter (fun x => decide (x < base)) (by simpa using h1), if_neg (by omega)]
    intro c hc
    rcases List.mem_append.mp hc with hc | hc
    · have := cellsAt_bounds l base c hc; omega
    · have := List.of_mem_filter hc; simp at this; omega
  · rw [read_append_of_not_mem]
    · by_cases h2 : a < base + l.length
      · rw [read_append_of_blank, read_cellsAt]
        · have : base ≤ a ∧ a < base + l.length := by omega
          simp [this]
        · intro c hc
          have := List.of_mem_filter hc; simp at this; omega
      · rw [read_append_of_not_mem, read_filter (fun x => decide (base + l.length ≤ x)) (by simp; omega),
          if_neg (by omega)]
        intro c hc
        have := cellsAt_bounds l base c hc; omega
    · intro c hc
      have := List.of_mem_filter hc; simp at this; omega

@[simp] theorem readRange_getElem (m : Memory) (base n i : Nat) (h : i < n) :
    (m.readRange base n)[i] = m.read (base + i) := by
  simp only [Memory.readRange, Vector.getElem_ofFn]
  exact read_filter (fun a => base ≤ a && decide (a < base + n)) (by simp; omega)

/-! ### The canonical form -/

theorem wf_iff (m : Memory) :
    m.wf = true ↔ m.Pairwise (fun c d => c.1 < d.1) ∧ ∀ c ∈ m, c.2 ≠ Memory.blank := by
  induction m with
  | nil => simp [Memory.wf]
  | cons c m ih =>
    cases m with
    | nil => simp [Memory.wf]
    | cons d m =>
      simp only [Memory.wf, Bool.and_eq_true, bne_iff_ne, ne_eq, decide_eq_true_eq, ih, List.pairwise_cons]
      constructor
      · rintro ⟨⟨h1, h2⟩, ⟨h3, h4⟩, h5⟩
        refine ⟨⟨?_, h3, h4⟩, ?_⟩
        · intro e he
          rcases List.mem_cons.mp he with rfl | he
          · exact h2
          · exact h2.trans (h3 e he)
        · intro e he
          rcases List.mem_cons.mp he with rfl | he
          · exact h1
          · exact h5 e he
      · rintro ⟨⟨h1, h3, h4⟩, h5⟩
        exact ⟨⟨h5 c (by simp), h1 d (by simp)⟩, ⟨h3, h4⟩, fun e he => h5 e (List.mem_cons_of_mem _ he)⟩

theorem cellsAt_canonical (l : List Byte) (base : Nat) :
    (Memory.cellsAt base l).Pairwise (fun c d => c.1 < d.1) ∧
      ∀ c ∈ Memory.cellsAt base l, c.2 ≠ Memory.blank := by
  induction l generalizing base with
  | nil => simp [Memory.cellsAt]
  | cons b l ih =>
    unfold Memory.cellsAt
    split
    · exact ih _
    · refine ⟨List.pairwise_cons.mpr ⟨?_, (ih _).1⟩, ?_⟩
      · intro c hc
        have := cellsAt_bounds l (base + 1) c hc
        simp only; omega
      · intro c hc
        rcases List.mem_cons.mp hc with rfl | hc
        · assumption
        · exact (ih _).2 c hc

/-- Every write keeps the canonical form. -/
theorem wf_writeRange {m : Memory} (h : m.wf = true) (base : Nat) (l : List Byte) :
    (m.writeRange base l).wf = true := by
  rw [wf_iff] at h ⊢
  obtain ⟨hs, hb⟩ := h
  obtain ⟨cs, cb⟩ := cellsAt_canonical l base
  have bounds := cellsAt_bounds l base
  unfold Memory.writeRange
  refine ⟨List.pairwise_append.mpr ⟨hs.filter _, List.pairwise_append.mpr ⟨cs, hs.filter _, ?_⟩, ?_⟩, ?_⟩
  · intro c hc d hd
    have h1 := bounds c hc
    have h2 := List.of_mem_filter hd
    simp at h2; omega
  · intro c hc d hd
    have h1 := List.of_mem_filter hc
    simp at h1
    rcases List.mem_append.mp hd with hd | hd
    · have := bounds d hd; omega
    · have h2 := List.of_mem_filter hd
      simp at h2; omega
  · intro c hc
    rcases List.mem_append.mp hc with hc | hc
    · exact hb c (List.mem_of_mem_filter hc)
    · rcases List.mem_append.mp hc with hc | hc
      · exact cb c hc
      · exact hb c (List.mem_of_mem_filter hc)

/-- A write below `top` lists no address from `top` on, where the memory before it listed none. -/
theorem writeRange_below {m : Memory} {top : Nat} (h : ∀ c ∈ m, c.1 < top) {base : Nat} {l : List Byte}
    (hl : base + l.length ≤ top) : ∀ c ∈ m.writeRange base l, c.1 < top := by
  intro c hc
  unfold Memory.writeRange at hc
  rcases List.mem_append.mp hc with hc | hc
  · exact h c (List.mem_of_mem_filter hc)
  · rcases List.mem_append.mp hc with hc | hc
    · have := cellsAt_bounds l base c hc; omega
    · exact h c (List.mem_of_mem_filter hc)

theorem reset_stores_canonical : StoresCanonical State.reset := by
  refine ⟨rfl, ?_, rfl, ?_⟩ <;> (intro c hc; exact absurd hc (List.not_mem_nil))

theorem slotBase_fits (a : Byte) : slotBase a + 512 ≤ 512 * 256 := by
  have := a.isLt; simp only [slotBase]; omega

theorem keySet_stores {s : State} (h : StoresCanonical s) (a : Byte) (k r : Key) :
    StoresCanonical (keySet a k r s) :=
  ⟨wf_writeRange h.1 _ _, writeRange_below h.2.1 (by simpa using slotBase_fits a), h.2.2⟩

theorem blkSet_stores {s : State} (h : StoresCanonical s) {a : Word} (ha : a.toNat ≤ 31) (d : Record) :
    StoresCanonical (blkSet a d s) :=
  ⟨h.1, h.2.1, wf_writeRange h.2.2.1 _ _,
    writeRange_below h.2.2.2 (by simp only [recordBase, Vector.length_toList]; omega)⟩

/-! ### Keys, responses and records -/

@[simp] theorem keyAt_getElem (s : State) (a : Byte) (i : Nat) (h : i < 256) :
    (keyAt s a)[i] = s.keystore.read (slotBase a + i) := readRange_getElem ..

@[simp] theorem responseAt_getElem (s : State) (a : Byte) (i : Nat) (h : i < 256) :
    (responseAt s a)[i] = s.keystore.read (slotBase a + 256 + i) := readRange_getElem ..

@[simp] theorem blkGet_getElem (s : State) (a : Word) (i : Nat) (h : i < 1024) :
    (blkGet s a)[i] = s.blockstore.read (recordBase a + i) := readRange_getElem ..

/-- Keys and responses depend on `KEYSTORE` alone. -/
theorem keyAt_congr {s t : State} (h : s.keystore = t.keystore) : keyAt s = keyAt t := by
  funext a; simp [keyAt, h]

theorem responseAt_congr {s t : State} (h : s.keystore = t.keystore) : responseAt s = responseAt t := by
  funext a; simp [responseAt, h]

/-- Records depend on `BLOCKSTORE` alone. -/
theorem blkGet_congr {s t : State} (h : s.blockstore = t.blockstore) : blkGet s = blkGet t := by
  funext a; simp [blkGet, h]

theorem slotBase_ne {a b : Byte} (h : a ≠ b) : slotBase a + 512 ≤ slotBase b ∨ slotBase b + 512 ≤ slotBase a := by
  have : a.toNat ≠ b.toNat := fun e => h (BitVec.eq_of_toNat_eq e)
  simp only [slotBase]; omega

theorem recordBase_ne {a b : Word} (h : a ≠ b) :
    recordBase a + 1024 ≤ recordBase b ∨ recordBase b + 1024 ≤ recordBase a := by
  have : a.toNat ≠ b.toNat := fun e => h (BitVec.eq_of_toNat_eq e)
  simp only [recordBase]; omega

/-- `KeyGet` after `KeySet` to the same slot (R51). -/
theorem keyAt_keySet_same (a : Byte) (k r : Key) (s : State) : keyAt (keySet a k r s) a = k := by
  apply Vector.ext
  intro i hi
  rw [keyAt_getElem, keySet_keystore, read_writeRange, if_pos (by simp; omega)]
  simp [List.getD_eq_getElem?_getD, List.getElem?_append_left, hi]

theorem responseAt_keySet_same (a : Byte) (k r : Key) (s : State) : responseAt (keySet a k r s) a = r := by
  apply Vector.ext
  intro i hi
  rw [responseAt_getElem, keySet_keystore, read_writeRange, if_pos (by simp; omega)]
  have : slotBase a + 256 + i - slotBase a = 256 + i := by omega
  simp [List.getD_eq_getElem?_getD, this, List.getElem?_append_right, hi]

/-- `KeyGet` of another slot after `KeySet` (R51). -/
theorem keyAt_keySet_ne {a b : Byte} (h : b ≠ a) (k r : Key) (s : State) :
    keyAt (keySet a k r s) b = keyAt s b := by
  apply Vector.ext
  intro i hi
  have := slotBase_ne h
  rw [keyAt_getElem, keyAt_getElem, keySet_keystore, read_writeRange, if_neg (by simp; omega)]

theorem responseAt_keySet_ne {a b : Byte} (h : b ≠ a) (k r : Key) (s : State) :
    responseAt (keySet a k r s) b = responseAt s b := by
  apply Vector.ext
  intro i hi
  have := slotBase_ne h
  rw [responseAt_getElem, responseAt_getElem, keySet_keystore, read_writeRange, if_neg (by simp; omega)]

/-- `BlkGet` after `BlkSet` of the same record (R52). -/
theorem blkGet_blkSet_same (a : Word) (d : Record) (s : State) : blkGet (blkSet a d s) a = d := by
  apply Vector.ext
  intro i hi
  rw [blkGet_getElem, blkSet_blockstore, read_writeRange, if_pos (by simp; omega)]
  simp [List.getD_eq_getElem?_getD, hi]

/-- `BlkGet` of another record after `BlkSet` (R52). -/
theorem blkGet_blkSet_ne {a b : Word} (h : b ≠ a) (d : Record) (s : State) :
    blkGet (blkSet a d s) b = blkGet s b := by
  apply Vector.ext
  intro i hi
  have := recordBase_ne h
  rw [blkGet_getElem, blkGet_getElem, blkSet_blockstore, read_writeRange, if_neg (by simp; omega)]

end Sys2Proof.Machine
end

