-- ==== Sys2Proof/Laws/KeyIndex.lean ====
section
/-! SUPPORT. The laws of the Key Index's operations and of the commands' shared ends: what each can do. -/

namespace Sys2Proof.Machine

/-! ### The slots -/

theorem mem_allBytes (a : Byte) : a ∈ allBytes :=
  List.mem_map.mpr ⟨a.toNat, by simp [a.isLt], by simp⟩

theorem allBytes_nodup : allBytes.Nodup := by
  refine List.Nodup.map_on ?_ List.nodup_range
  intro x hx y hy h
  have := congrArg BitVec.toNat h
  simp only [List.mem_range, BitVec.toNat_ofNat] at hx hy this
  omega

theorem allBytes_count (a : Byte) : allBytes.count a = 1 := List.count_eq_one_of_mem allBytes_nodup (mem_allBytes a)

/-! ### RebuildIndex -/

theorem sortedIndex_toList (s : State) (rank : Nat → Nat) : (sortedIndex s rank).toList = sortedSlots s rank := by
  unfold sortedIndex; simp [Vector.toList]

theorem sortedSlots_perm (s : State) (rank : Nat → Nat) : (sortedSlots s rank).Perm allBytes := by
  unfold sortedSlots
  refine (List.Perm.map _ (List.perm_insertionSort _ _)).trans ?_
  simp [entries, Function.comp_def]

/-! ### Find -/

theorem mem_matchSet (s : State) (k : Key) (a : Byte) : a ∈ matchSet s k ↔ keyAt s a = k := by
  simp [matchSet, mem_allBytes]

/-- Everything the choice among matching slots can answer. -/
theorem pickSlot_spec (m : List Byte) (pick : Nat) :
    (m = [] ∧ pickSlot m pick = .notFound) ∨ ∃ a ∈ m, pickSlot m pick = .found a := by
  match m with
  | [] => exact .inl ⟨rfl, rfl⟩
  | [a] => exact .inr ⟨a, by simp, rfl⟩
  | a :: b :: rest =>
    refine .inr ⟨_, ?_, rfl⟩
    have h : pick % (rest.length + 2) < (a :: b :: rest).length := Nat.mod_lt _ (by simp)
    rw [List.getD_eq_getElem?_getD, List.getElem?_eq_getElem h]
    exact List.getElem_mem h

@[simp] theorem find_state (k : Key) (s : State) : (find k s).1 = { s with draws := s.draws + 1 } := rfl

/-! ### SetPermutation -/

/-- Everything `SetPermutation` can do (R119). -/
theorem setPermutation_cases (v : Key) (s : State) :
    (validPerm v = true ∧ setPermutation v s = (rebuildIndex { s with perm := v }, .accepted)) ∨
    (validPerm v = false ∧ setPermutation v s = (s, .rejected)) := by
  unfold setPermutation
  cases validPerm v <;> simp

/-! ### EraseAll -/

/-- What the writes of `EraseAll` leave alone. -/
theorem eraseLoop_frame (l : List Byte) (s : State) :
    ∃ m calls, l.foldl (fun s a => keySet a zeroKey zeroKey s) s = { s with keystore := m, calls := calls } := by
  induction l generalizing s with
  | nil => exact ⟨s.keystore, s.calls, rfl⟩
  | cons a l ih =>
    obtain ⟨m, calls, h⟩ := ih (keySet a zeroKey zeroKey s)
    exact ⟨m, calls, by rw [List.foldl_cons, h]; rfl⟩

theorem eraseLoop_calls (l : List Byte) (s : State) :
    (l.foldl (fun s a => keySet a zeroKey zeroKey s) s).calls =
      s.calls ++ l.map fun a => .keySet a zeroKey zeroKey := by
  induction l generalizing s with
  | nil => simp
  | cons a l ih => simp [ih]

theorem eraseLoop_stores {s : State} (h : StoresCanonical s) (l : List Byte) :
    StoresCanonical (l.foldl (fun s a => keySet a zeroKey zeroKey s) s) := by
  induction l generalizing s with
  | nil => exact h
  | cons a l ih => exact ih (keySet_stores h a _ _)

/-! ### The Block Store -/

theorem addrLegal_iff (a : Word) : addrLegal a = true ↔ a.toNat ≤ 31 := by simp [addrLegal]

/-- Everything `ReadRecord` can do (R130). -/
theorem readRecord_cases (a : Word) (s : State) :
    (a.toNat ≤ 31 ∧ readRecord a s = some (blkGet s a)) ∨ (31 < a.toNat ∧ readRecord a s = none) := by
  by_cases h : a.toNat ≤ 31
  · exact .inl ⟨h, by simp [readRecord, addrLegal, h]⟩
  · exact .inr ⟨by omega, by simp [readRecord, addrLegal, h]⟩

/-- Everything `WriteRecord` can do (R131). -/
theorem writeRecord_cases (a : Word) (d : Record) (s : State) :
    (a.toNat ≤ 31 ∧ writeRecord a d s = some (blkSet a d s)) ∨ (31 < a.toNat ∧ writeRecord a d s = none) := by
  by_cases h : a.toNat ≤ 31
  · exact .inl ⟨h, by simp [writeRecord, addrLegal, h]⟩
  · exact .inr ⟨by omega, by simp [writeRecord, addrLegal, h]⟩

/-! ### Operand failure -/

/-- Operand failure sends at most a NAK and writes `OP_ERR` (R155). -/
theorem operandFailed_eq (s : State) :
    operandFailed s = { s with
      txcrc := if s.cfg.operandFailReply = .nak then crc16 s.cfg.crc [s.cfg.nak] else s.txcrc
      calls := s.calls ++ if s.cfg.operandFailReply = .nak then frameCalls s.cfg.crc [s.cfg.nak] else []
      status := withOpErr s.status OpErr.opOperand.code } := by
  unfold operandFailed
  split <;> simp [setOpErr, sendByte, send]

end Sys2Proof.Machine
end

