-- ==== Sys2Proof/Laws/Link.lean ====
section
/-! SUPPORT. What a `Receive` does with a frame that arrives, and what a `Receive` and a `ReceiveOperand` can change on
the link, in `STATUS` and in the output calls, from any state. -/

namespace Sys2Proof.Machine

/-! ### A frame that arrives -/

/-- The loop of R93 over bytes that arrive in time, up to the answer `e` behind them. -/
theorem scan_start (m : Nat) (body : List LinkEvent) (e : LinkEvent) (rest : List LinkEvent) (l : List Byte)
    (tl now : Nat) (h0 : StartsAtOnce (body ++ [e])) (hs : symbolsIn body = l.map LinkAns.byte)
    (ht : timely 0 body = true) (hm : l.length ≤ m) :
    ∃ tl' now', (l ≠ [] → tl' ≤ now') ∧ now ≤ now' ∧
      scan m (body ++ e :: rest) 0 [] tl now = scan m (e :: rest) l.length l.reverse tl' now' := by
  cases body with
  | nil =>
    have : l = [] := by simpa [symbolsIn] using hs
    subst this; exact ⟨tl, now, by simp, le_rfl, rfl⟩
  | cons f body =>
    obtain ⟨g, r, hg, hne⟩ := h0
    obtain ⟨rfl, -⟩ : f = g ∧ _ := by simpa using hg
    obtain ⟨dt, ans⟩ := f
    cases ans with
    | noData => simp at hne
    | eof => cases l <;> simp [symbolsIn] at hs
    | err => cases l <;> simp [symbolsIn] at hs
    | byte b =>
      cases l with
      | nil => simp [symbolsIn] at hs
      | cons b' l =>
        obtain ⟨rfl, hs'⟩ : b = b' ∧ symbolsIn body = l.map LinkAns.byte := by simpa [symbolsIn] using hs
        simp only [timely, reduceCtorEq, if_false] at ht
        simp only [List.length_cons] at hm
        obtain ⟨tl', now', h1, h2, -, h4⟩ :=
          scan_carried m body (e :: rest) l 1 [b] (now + dt) (now + dt) 0 hs' ht (by omega) le_rfl (by omega)
        refine ⟨tl', now', fun _ => h1, by omega, ?_⟩
        have : ¬ 0 = m := by omega
        have k : scan m (⟨dt, .byte b⟩ :: (body ++ e :: rest)) 0 [] tl now =
            scan m (body ++ e :: rest) 1 [b] (now + dt) (now + dt) := by
          generalize body ++ e :: rest = q
          simp [scan, this]
        rw [List.cons_append, k, h4]; congr 1
        · simp [Nat.add_comm]
        · simp

/-- The loop of R93 over polls that find nothing, none of them at the bound: the clock goes on, the timer is not
restarted (R98). -/
theorem scan_wait (m : Nat) (wait link : List LinkEvent) (cnt : Nat) (acc : List Byte) (tl gap : Nat)
    (hs : symbolsIn wait = []) (ht : timely gap wait = true) :
    scan m (wait ++ link) cnt acc tl (tl + gap) =
      scan m link cnt acc tl (tl + gap + (wait.map LinkEvent.dt).sum) := by
  induction wait generalizing gap with
  | nil => simp
  | cons e wait ih =>
    have hn : e.ans = .noData := by
      by_contra hn; simp [symbolsIn, hn] at hs
    simp only [timely, hn, if_true, Bool.and_eq_true, decide_eq_true_eq] at ht
    have hg : ¬ tInact ≤ gap + e.dt := by omega
    have h := ih (gap + e.dt) (by simpa [symbolsIn, hn] using hs) ht.2
    rw [← Nat.add_assoc] at h
    simp only [List.cons_append, scan, demand_eq, hn, Nat.add_assoc, Nat.add_sub_cancel_left, hg, if_false,
      List.map_cons, List.sum_cons] at h ⊢
    exact h

/-- A `Receive` on bytes that arrive in time: it goes on at the answer `e` behind them. -/
theorem receive_start {lenP lenA : Nat} {s : State} {body : List LinkEvent} {e : LinkEvent} {rest : List LinkEvent}
    {l : List Byte} (hl : s.link = body ++ e :: rest) (h0 : StartsAtOnce (body ++ [e]))
    (hs : symbolsIn body = l.map LinkAns.byte) (ht : timely 0 body = true) (hm : l.length ≤ maxTot lenP lenA) :
    ∃ tl' now', (l ≠ [] → tl' ≤ now') ∧ ∀ r, r = scan (maxTot lenP lenA) (e :: rest) l.length l.reverse tl' now' →
      receive lenP lenA s = endReceive lenP lenA r.fin (commitScan r s) := by
  obtain ⟨tl', now', h1, -, h3⟩ := scan_start (maxTot lenP lenA) body e rest l s.tlast s.now h0 hs ht hm
  refine ⟨tl', now', h1, ?_⟩
  rintro r rfl
  rw [← h3, ← hl]
  have : ∃ f r, s.link = f :: r ∧ f.ans ≠ .noData := by
    obtain ⟨g, r, hg, hne⟩ := h0
    cases body with
    | nil => simp at hg; exact ⟨e, rest, hl, by rw [hg.1]; exact hne⟩
    | cons f body => simp at hg; exact ⟨f, body ++ e :: rest, hl, by rw [hg.1]; exact hne⟩
  obtain ⟨f, q, hq, hne⟩ := this
  unfold receive
  split
  · next h => simp [h] at hq
  · next h =>
    rw [h] at hq; cases hq
    simp [hne, h]

/-- A `Receive` on a frame, right or wrong, of one of the two lengths: what is left is the checksum (R96). -/
theorem receive_frame {lenP lenA : Nat} {s : State} {l : List Byte} {evs rest : List LinkEvent}
    (hlen : l.length = lenP + 2 ∨ lenA ≠ 0 ∧ l.length = lenA + 2) (hl : s.link = evs ++ rest) (hc : Carries l evs)
    (h0 : StartsAtOnce evs) :
    ∃ t, receive lenP lenA s = acceptFrame lenP lenA t ∧ t.rxcnt = l.length ∧ t.rxbuf = fillRxbuf s.rxbuf l ∧
      t.link = rest ∧ LinkOnly s t ∧ t.dstate = s.dstate ∧ t.status = s.status ∧ t.calls = s.calls := by
  obtain ⟨body, dt, rfl, hs, ht⟩ := hc
  have hm : l.length ≤ maxTot lenP lenA := by unfold maxTot; split <;> omega
  rw [List.append_assoc] at hl
  obtain ⟨tl, now, -, h⟩ := receive_start hl h0 hs ht hm
  have H := h _ rfl
  simp only [scan, demand_eq, endReceive] at H
  obtain ⟨k, d, e, f⟩ := commitScan_linkOnly
    { bytes := l.reverse.reverse, tlast := tl, now := now + dt, rest := rest, fin := .eof } s
  exact ⟨_, H, by simp, by simp, by simp, k, d, e, f⟩

/-- The first `n` bytes of a buffer filled with at least `n` bytes. -/
theorem rxSlice_fill {s t : State} {l : List Byte} {n : Nat} (h : t.rxbuf = fillRxbuf s.rxbuf l)
    (hl : l.length ≤ 1028) (hn : n ≤ l.length) : rxSlice t 0 n = l.take n := by
  simp [rxSlice, h, fillRxbuf_toList _ hl, List.take_append_of_le_length hn]

theorem joinBytes_toNat (hi lo : Byte) : (joinBytes hi lo).toNat = hi.toNat * 256 + lo.toNat := by
  have := hi.isLt; have := lo.isLt
  simp only [joinBytes, BitVec.toNat_ofNat]; omega

theorem joinBytes_inj {a b c d : Byte} (h : joinBytes a b = joinBytes c d) : a = c ∧ b = d := by
  have := congrArg BitVec.toNat h
  rw [joinBytes_toNat, joinBytes_toNat] at this
  have := a.isLt; have := b.isLt; have := c.isLt; have := d.isLt
  exact ⟨BitVec.eq_of_toNat_eq (by omega), BitVec.eq_of_toNat_eq (by omega)⟩

/-- The two checksum bytes put together again. -/
theorem joinBytes_extract (c : Word) : joinBytes (c.extractLsb' 8 8) (c.extractLsb' 0 8) = c := by
  apply BitVec.eq_of_toNat_eq
  have := c.isLt
  rw [joinBytes_toNat]
  simp [BitVec.extractLsb'_toNat, Nat.shiftRight_eq_div_pow]; omega

/-- The checksum received behind a payload. -/
theorem rxChecksum_fill {s t : State} {p : List Byte} {x y : Byte} (h : t.rxbuf = fillRxbuf s.rxbuf (p ++ [x, y]))
    (hl : p.length + 2 ≤ 1028) : rxChecksum t p.length = joinBytes x y := by
  have : t.rxbuf.toList = (p ++ [x, y]) ++ s.rxbuf.toList.drop (p.length + 2) := by
    rw [h, fillRxbuf_toList _ (by simpa using hl)]; simp
  simp [rxChecksum, this, List.getD_eq_getElem?_getD]

/-! ### What receiving can change, from any state -/

/-- What a `Receive` and a `ReceiveOperand` answer and leave on the link, in the clock, in the output calls, in the
decoding layer, in `RXCNT` and in `STATUS`. -/
structure Received (s : State) (r : State × RxResult) : Prop where
  link     : r.1.link <:+ s.link
  now      : s.now ≤ r.1.now
  calls    : r.1.calls = s.calls ∨ r.1.calls = s.calls ++ [.decClear]
  decLayer : s.decLayer = .cleared → r.1.decLayer = .cleared
  status   : r.1.status = s.status ∨ ∃ c : Cause, r.1.status = withLinkErr s.status c.code
  ok       : ∀ n, r.2 = .ok n → r.1.status = s.status ∧ r.1.calls = s.calls ++ [.decClear]
  fail     : ∀ c, r.2 = .fail c → r.1.status = withLinkErr s.status c.code

theorem maxTot_le {lenP lenA : Nat} (hP : lenP ≤ 1026) (hA : lenA ≤ 1026) : maxTot lenP lenA ≤ 1028 := by
  unfold maxTot; split <;> omega

theorem receive_received (lenP lenA : Nat) (s : State) : Received s (receive lenP lenA s) := by
  rcases receive_cases lenP lenA s with ⟨link, dt, h0, h⟩ | ⟨r, hr, hh⟩
  · rw [h]
    refine ⟨?_, by simp, .inl rfl, id, .inl rfl, by simp, by simp⟩
    rcases h0 with ⟨a, b, -⟩ | ⟨e, he, -⟩
    · simp [a, b]
    · simp [he]
  · have hp := (scan_progress (maxTot lenP lenA) s.link 0 [] s.tlast s.now)
    rw [← hr] at hp
    obtain ⟨-, -, e, f⟩ := commitScan_linkOnly r s
    have hn := hp.1.trans (commitScan_now r s)
    rcases hh with ⟨c, h⟩ | ⟨h, -, -⟩ <;> rw [h]
    · refine ⟨by simpa [raiseAbort] using hp.2, by simpa [raiseAbort] using hn, .inr (by simp [raiseAbort, f]),
        fun _ => rfl, .inr ⟨c, by simp [raiseAbort, e]⟩, by simp [raiseAbort], fun c' hc => ?_⟩
      cases hc; simp [raiseAbort, e]
    · exact ⟨by simpa using hp.2, by simpa using hn, .inr (by simp [f]), fun _ => rfl, .inl (by simp [e]),
        fun _ _ => ⟨by simp [e], by simp [f]⟩, by simp⟩

theorem receive_rxcnt {lenP lenA : Nat} (hP : lenP ≤ 1026) (hA : lenA ≤ 1026) (s : State) :
    (receive lenP lenA s).1.rxcnt ≤ 1028 := by
  have hb := scan_bytes_le (maxTot lenP lenA) s.link 0 [] s.tlast s.now rfl (by omega)
  have hm := maxTot_le hP hA
  rcases receive_cases lenP lenA s with ⟨link, dt, h0, h⟩ | ⟨r, hr, ⟨c, h⟩ | ⟨h, -, -⟩⟩ <;> rw [h]
  · simp
  · subst hr; simp [raiseAbort]; omega
  · subst hr; simp; omega

theorem awaitOperand_received (len t0 fuel : Nat) (s : State) : Received s (awaitOperand len t0 fuel s) := by
  induction fuel generalizing s with
  | zero =>
    refine ⟨by simp [awaitOperand, operandTimeout], by simp [awaitOperand, operandTimeout]; omega, .inl rfl, id,
      .inr ⟨.timeout, rfl⟩, by simp [awaitOperand, operandTimeout], fun c hc => ?_⟩
    cases hc; rfl
  | succ fuel ih =>
    have H := receive_received len 0 s
    unfold awaitOperand
    split
    · next s' h =>
      rw [h] at H
      have hc : s'.calls = s.calls ∧ s'.status = s.status ∧ (s.decLayer = .cleared → s'.decLayer = .cleared) := by
        rcases receive_cases len 0 s with ⟨link, dt, h0, hh⟩ | ⟨r, -, ⟨c, hh⟩ | ⟨hh, -, -⟩⟩ <;> rw [hh] at h <;> cases h
        exact ⟨rfl, rfl, id⟩
      obtain ⟨h1, h2, h3⟩ := hc
      split
      · refine ⟨H.link, H.now, .inl h1, h3, .inr ⟨.timeout, by simp [operandTimeout, h2]⟩, by simp [operandTimeout],
          fun c hc => ?_⟩
        cases hc; simp [operandTimeout, h2]
      · have K := ih s'
        exact ⟨K.link.trans H.link, H.now.trans K.now, by simpa [h1] using K.calls, fun h => K.decLayer (h3 h),
          by simpa [h2] using K.status, by simpa [h1, h2] using K.ok, by simpa [h2] using K.fail⟩
    · next s' n h => rw [h] at H; exact H
    · next s' c h => rw [h] at H; exact H

theorem receiveOperand_received (len : Nat) (s : State) : Received s (receiveOperand len s) := by
  have H := awaitOperand_received len s.now s.link.length { s with dstate := .awaitingOperand }
  exact ⟨H.link, H.now, H.calls, H.decLayer, H.status, H.ok, H.fail⟩

theorem receiveOperand_rxcnt {len : Nat} (h : len ≤ 1026) (s : State) : (receiveOperand len s).1.rxcnt ≤ 1028 := by
  unfold receiveOperand
  generalize s.link.length = fuel
  generalize ({ s with dstate := .awaitingOperand } : State) = s'
  generalize s.now = t0
  induction fuel generalizing s' with
  | zero => simp [awaitOperand, operandTimeout]
  | succ fuel ih =>
    have hr := receive_rxcnt h (Nat.zero_le _) s'
    unfold awaitOperand
    split
    · next u hu =>
      rw [hu] at hr
      split
      · simpa [operandTimeout] using hr
      · exact ih u
    · next u n hu => rw [hu] at hr; exact hr
    · next u c hu => rw [hu] at hr; exact hr

end Sys2Proof.Machine
end

