-- ==== Sys2Proof/Laws/PerInstr.lean ====
section
/-! SUPPORT. A fact about every command as syntax, one lemma per constructor: the payload of its first packet has one
of the two lengths the block accepts (`30_encoding.md` R73, R81). -/

namespace Sys2Proof.Laws.FirstPacket

/-- Under parameters that admit the command, its first payload is 256 bytes for a lookup and 1 byte otherwise. -/
def Statement (i : Instr) : Prop :=
  ∀ c : Config, i.wf c = true → (encode c i).length = 256 ∧ (∃ k, i = .lookup k) ∨ (encode c i).length = 1

theorem lookup (pattern : Key) : Statement (.lookup pattern) := fun _ _ => .inl ⟨by simp [encode], pattern, rfl⟩
theorem prime : Statement .prime := fun _ _ => .inr rfl
theorem write : Statement .write := fun _ _ => .inr rfl
theorem erase : Statement .erase := fun _ _ => .inr rfl
theorem noise : Statement .noise := fun _ _ => .inr rfl
theorem get : Statement .get := fun _ _ => .inr rfl
theorem put : Statement .put := fun _ _ => .inr rfl
theorem status : Statement .status := fun c h => .inr (by
  obtain ⟨b, hb⟩ := Option.isSome_iff_exists.mp (show c.opStatus.isSome = true from h)
  simp [encode, hb])
theorem reserved (op : Byte) : Statement (.reserved op) := fun _ _ => .inr rfl

end Sys2Proof.Laws.FirstPacket
end

