-- ==== Sys2Proof/Tests/Slice0.lean ====
section
/-! SUPPORT. The model's own tests. Expected values are those of `spec/95_test_vectors.md` (its vector or program step
is named) or of the rule named; the witnesses at the end meet the hypotheses of the statements of
`Certificates/Slice0/Obligations.lean`. -/

namespace Sys2Proof.Tests

open Sys2Proof.Machine

-- One theorem after another: each thread that waits for an earlier evaluation holds memory of its own.
set_option Elab.async false

/-! ### Helpers -/

/-- The symbols of a frame attempt: bytes, then `EOF`. -/
def symbols (l : List Byte) : List LinkAns := l.map LinkAns.byte ++ [.eof]

/-- The block after reset with some symbols on the link, each available at once. -/
def fed (l : List LinkAns) : State := { State.reset with link := arriving l }

/-- The same, for frames written as byte lists. -/
def fedFrames (frames : List (List Byte)) : State := fed (frames.flatMap symbols)

/-- `OP_STATUS = 0x77`, as in the spec's vectors that use `status`. -/
def withStatus : Config := { defaultConfig with opStatus := some 0x77 }

/-- What a step leaves in `STATUS`. -/
def statusOf : Host.Outcome State Fault Refusal → Option Byte
  | .next s => some s.status
  | .fault _ => none
  | .refused _ => none

/-- The bytes of the frames a step sends. -/
def sent : Host.Outcome State Fault Refusal → Option (List Byte)
  | .next s => some (s.calls.filterMap fun c => match c with | .encByte b => some b | _ => none)
  | .fault _ => none
  | .refused _ => none

/-- The vector `I` of the spec, the identity. -/
def vectorI : Key := Vector.ofFn fun i => BitVec.ofNat 8 i.val

/-- The vector `REV` of the spec, descending. -/
def vectorRev : Key := Vector.ofFn fun i => BitVec.ofNat 8 (255 - i.val)

theorem vectorRev_toList : vectorRev.toList = allBytes.reverse := by decide +kernel

theorem vectorRev_count (v : Byte) : vectorRev.toList.count v = 1 := by
  rw [vectorRev_toList, List.count_reverse]
  exact List.count_eq_one_of_mem allBytes_nodup (mem_allBytes v)

/-- Every slot of a store that lists nothing holds the all-zero key. -/
theorem blank_keyAt {s : State} (h : s.keystore = []) (a : Byte) : keyAt s a = zeroKey := by
  apply Vector.ext
  intro i hi
  simp [h, Memory.read, Memory.blank, zeroKey]

/-- `Z[j:=x]` of the spec. -/
def zeroBut (j : Nat) (x : Byte) : Key := zeroKey.setIfInBounds j x

theorem zeroKey_ne : zeroKey ≠ zeroBut 0 1 := fun e => by
  have := congrArg (fun k : Key => k[0]) e
  simp [zeroKey, zeroBut] at this

/-! ### Well-formedness (R7, R78, R83): one ill-formed term per check -/

theorem test_wf_default : defaultConfig.wf = true ∧ withStatus.wf = true := by decide
theorem test_wf_refuses_even_poly :
    ({ defaultConfig with crc := { defaultConfig.crc with poly := 0x1020 } } : Config).wf = false := by decide
theorem test_wf_refuses_ack_equal_nak : ({ defaultConfig with nak := 0x06 } : Config).wf = false := by decide
theorem test_wf_refuses_status_as_one_of_the_six :
    sixOpcodes.all (fun b => ({ defaultConfig with opStatus := some b } : Config).wf == false) = true := by decide
theorem test_wf_refuses_status_without_opcode :
    Instr.status.wf defaultConfig = false ∧ Instr.status.wf withStatus = true := by decide
theorem test_wf_refuses_reserved_one_of_the_six :
    sixOpcodes.all (fun b => (Instr.reserved b).wf defaultConfig == false) = true := by decide
theorem test_wf_refuses_reserved_status_opcode :
    (Instr.reserved 0x77).wf withStatus = false ∧ (Instr.reserved 0x77).wf defaultConfig = true := by decide

/-! ### Decoding: the words of R74, bit by bit -/

theorem test_decode_prime : decodeTableWord 8 0b00010001 = some .prime := by decide
theorem test_decode_write : decodeTableWord 8 0b00100010 = some .write := by decide
theorem test_decode_erase : decodeTableWord 8 0b00110011 = some .erase := by decide
theorem test_decode_noise : decodeTableWord 8 0b01000100 = some .noise := by decide
theorem test_decode_get : decodeTableWord 8 0b01010101 = some .get := by decide
theorem test_decode_put : decodeTableWord 8 0b01100110 = some .put := by decide
theorem test_decode_reserved : decodeTableWord 8 0b10011001 = some (.reserved 0x99) := by decide
/-- V-CMD15: 0x77 without `OP_STATUS` is reserved; with it, R145 gives `status`. -/
theorem test_decode_status :
    decodeTableWord 8 0b01110111 = some (.reserved 0x77) ∧ decode withStatus [0b01110111] = .ok .status := ⟨by decide, rfl⟩
/-- R73: 256 bytes are a lookup, whatever the first byte is. -/
theorem test_decode_lookup : decode defaultConfig (zeroBut 0 0x33).toList = .ok (.lookup (zeroBut 0 0x33)) := by
  simp [decode]
theorem test_decode_refuses_other_lengths :
    decode defaultConfig [] = .error (.length 0) ∧ decode defaultConfig [0x33, 0x00] = .error (.length 2) := ⟨rfl, rfl⟩

/-! ### The checksum: V-CRC2, V-CRC7, V-CRC12, V-CRC17 and the table of other parameter sets -/

theorem test_crc_check :
    crc16 defaultConfig.crc [0x31, 0x32, 0x33, 0x34, 0x35, 0x36, 0x37, 0x38, 0x39] = 0x29B1 := by decide +kernel
theorem test_crc_erase_and_ack :
    crc16 defaultConfig.crc [0x33] = 0xE7C0 ∧ crc16 defaultConfig.crc [0x06] = 0x8136 := by decide
theorem test_crc_zero_key : crc16 defaultConfig.crc zeroKey.toList = 0x41E8 := by decide +kernel
theorem test_crc_kermit : crc16 ⟨0x1021, 0, true, true, 0⟩ [0x33] = 0x0318 := by decide +kernel
theorem test_crc_x25 : crc16 ⟨0x1021, 0xFFFF, true, true, 0xFFFF⟩ [0x15] = 0xB754 := by decide +kernel

/-! ### Receive: V-RX1 to V-RX15 -/

theorem test_rx_idle : (receive 256 1 (fed [.noData])).2 = .noFrame := by decide +kernel
theorem test_rx_ok :
    (receive 256 1 (fed (symbols [0x33, 0xE7, 0xC0]))).2 = .ok 1 ∧
    (receive 256 1 (fed (symbols [0x33, 0xE7, 0xC0]))).1.rxbuf[0] = 0x33 := by decide +kernel
theorem test_rx_crc :
    (receive 256 1 (fed (symbols [0x33, 0xE7, 0xC1]))).2 = .fail .crc ∧
    (receive 256 1 (fed (symbols [0x33, 0xE7, 0xC1]))).1.status = 0x03 := by decide +kernel
theorem test_rx_length :
    (receive 256 1 (fed (symbols [0x33, 0xE7]))).2 = .fail .length ∧
    (receive 256 1 (fed [.eof])).2 = .fail .length ∧
    (receive 256 1 (fed (symbols [0x33, 0xE7, 0xC0, 0x00]))).2 = .fail .length ∧
    (receive 2 0 (fed (symbols [0x33, 0xE7, 0xC0]))).2 = .fail .length := by decide +kernel
theorem test_rx_decode :
    (receive 256 1 (fed [.byte 0x33, .err])).2 = .fail .decode ∧
    (receive 256 1 (fed [.err])).1.status = 0x04 := by decide +kernel
theorem test_rx_overrun :
    (receive 2 0 (fed ([0x00, 0x05, 0x4D, 0xAA, 0x00].map LinkAns.byte))).2 = .fail .overrun ∧
    (receive 256 1 (fed (List.replicate 259 (.byte 0xAA)))).1.status = 0x05 := by decide +kernel
/-- V-RX6: a poll 499 ms after the last byte does not abort, one 500 ms after it does. -/
theorem test_rx_timeout :
    (receive 256 1 { State.reset with
      link := [⟨1000, .byte 0x33⟩, ⟨1, .byte 0xE7⟩, ⟨499, .noData⟩, ⟨1, .noData⟩, ⟨0, .byte 0xC0⟩] }).2 = .fail .timeout ∧
    (receive 256 1 { State.reset with
      link := [⟨1000, .byte 0x33⟩, ⟨1, .byte 0xE7⟩, ⟨499, .noData⟩, ⟨1, .noData⟩, ⟨0, .byte 0xC0⟩] }).1.link =
        [⟨0, .byte 0xC0⟩] := by decide +kernel
/-- V-RX15, V-RX16: gaps below 500 ms, and a symbol available at the poll that finds 700 ms passed. -/
theorem test_rx_gaps :
    (receive 256 1 { State.reset with
      link := [⟨0, .byte 0x33⟩, ⟨400, .noData⟩, ⟨99, .byte 0xE7⟩, ⟨1, .noData⟩, ⟨498, .byte 0xC0⟩, ⟨499, .eof⟩] }).2 = .ok 1 ∧
    (receive 256 1 { State.reset with link := [⟨0, .byte 0x33⟩, ⟨700, .byte 0xE7⟩, ⟨0, .byte 0xC0⟩, ⟨0, .eof⟩] }).2 =
        .ok 1 := by decide +kernel

/-! ### The Key Index and the stores: V-CMP2, V-CMP3, V-CMP6, V-PRM2 to V-PRM5, V-BLK -/

theorem test_compare :
    compareKeys vectorI (zeroBut 0 1) (zeroBut 255 2) = .gt ∧
    compareKeys vectorRev (zeroBut 0 1) (zeroBut 255 2) = .lt ∧
    compareKeys vectorI (zeroBut 0 0x80) (zeroBut 0 0x7F) = .gt := by decide +kernel
theorem test_valid_perm :
    validPerm vectorRev = true ∧ validPerm (vectorI.setIfInBounds 255 0) = false ∧ validPerm zeroKey = false := by
  refine ⟨?_, by decide +kernel, by decide +kernel⟩
  exact List.all_eq_true.mpr fun b _ => beq_iff_eq.mpr (vectorRev_count b)
/-- R55 and V-BLK5: the bytes `05 00` under the two orders. -/
theorem test_assemble : assemble .big 0x05 0x00 = 0x0500 ∧ assemble .little 0x05 0x00 = 5 := by decide
theorem test_record_range :
    addrLegal 31 = true ∧ addrLegal 32 = false ∧ addrLegal 0xFFFF = false ∧ addrLegal 0x0500 = false := by decide
/-- R51: the Key and the Response of a slot lie apart, and slot 4 is not slot 5. -/
theorem test_slot_round_trip :
    (keySet 5 (zeroBut 255 9) vectorRev State.reset).keystore.read (slotBase 5 + 255) = 9 ∧
    (keySet 5 (zeroBut 255 9) vectorRev State.reset).keystore.read (slotBase 5 + 256) = 255 ∧
    (keySet 5 (zeroBut 255 9) vectorRev State.reset).keystore.read (slotBase 4 + 511) = 0 := by decide +kernel

/-! ### Commands: one step each -/

/-- V-CMD1. -/
theorem test_erase : statusOf (step (fedFrames [[0x33, 0xE7, 0xC0]])) = some 0x00 ∧
    sent (step (fedFrames [[0x33, 0xE7, 0xC0]])) = some [0x06, 0x81, 0x36] := by decide +kernel
/-- V-CMD3, V-ST6. -/
theorem test_reserved : statusOf (step (fedFrames [[0x99, 0xF3, 0x60]])) = some 0x10 ∧
    sent (step (fedFrames [[0x99, 0xF3, 0x60]])) = some [0x15, 0xA3, 0x64] := by decide +kernel
/-- V-CMD5, V-ST2. -/
theorem test_prime_rejects :
    statusOf (step (fedFrames [[0x11, 0xE3, 0xE0], List.replicate 256 0 ++ [0x41, 0xE8]])) = some 0x40 := by
  decide +kernel
/-- V-CMD17 and V-CMD6: a frame of another length while `prime` waits is a failed operand, not an `erase`; and nothing
for 500 ms. -/
theorem test_prime_operand_fails :
    statusOf (step (fedFrames [[0x11, 0xE3, 0xE0], [0x33, 0xE7, 0xC0]])) = some 0x22 ∧
    statusOf (step { State.reset with
      link := arriving (symbols [0x11, 0xE3, 0xE0]) ++ [⟨500, .noData⟩] }) = some 0x21 := by decide +kernel
/-- V-CMD7: the pair is in slot 5, the Response in its second half. -/
theorem test_write :
    (match step (fedFrames [[0x22, 0xE5, 0xD0],
        0x05 :: (List.replicate 256 0x00 ++ List.replicate 256 0xFF ++ [0xAF, 0xB8])]) with
      | .next t => some (t.status, t.keystore.read 2815, t.keystore.read 2816, t.keystore.read 3071, t.keystore.read 3072)
      | _ => none) = some (0x00, 0x00, 0xFF, 0xFF, 0x00) := by decide +kernel
/-- V-CMD8, V-ST3. -/
theorem test_write_operand_checksum :
    statusOf (step (fedFrames [[0x22, 0xE5, 0xD0],
      0x05 :: (List.replicate 256 0x00 ++ List.replicate 256 0xFF ++ [0xAF, 0xB9])])) = some 0x23 := by decide +kernel
/-- V-CMD10. -/
theorem test_get_address : statusOf (step (fedFrames [[0x55, 0xEB, 0xA0], [0x00, 0x20, 0x39, 0x6D]])) = some 0x30 ∧
    sent (step (fedFrames [[0x55, 0xEB, 0xA0], [0x00, 0x20, 0x39, 0x6D]])) = some [0x15, 0xA3, 0x64] := by
  decide +kernel
/-- P3, step 3 on another address: 31 is legal. -/
theorem test_get_last_record :
    statusOf (step (fedFrames [[0x55, 0xEB, 0xA0], [0x00, 0x1F, 0xFE, 0xD1]])) = some 0x00 := by decide +kernel
/-- V-CMD11: record 5 is `AB×1024`, its neighbours are as before. -/
theorem test_put :
    (match step (fedFrames [[0x66, 0xED, 0x90], 0x00 :: 0x05 :: (List.replicate 1024 0xAB ++ [0x8C, 0xFE])]) with
      | .next t => some (t.status, t.blockstore.read 5119, t.blockstore.read 5120, t.blockstore.read 6143,
          t.blockstore.read 6144)
      | _ => none) = some (0x00, 0x00, 0xAB, 0xAB, 0x00) := by decide +kernel
/-- V-CMD12: address 32. -/
theorem test_put_address :
    (match step (fedFrames [[0x66, 0xED, 0x90], 0x00 :: 0x20 :: (List.replicate 1024 0xAB ++ [0x6B, 0xEB])]) with
      | .next t => some (t.status, t.blockstore)
      | _ => none) = some (0x30, []) := by decide +kernel
/-- V-CMD14. -/
theorem test_status :
    sent (step { fedFrames [[0x77, 0xEF, 0x80]] with cfg := withStatus }) = some [0x00, 0xE1, 0xF0] := by decide +kernel
/-- V-ST3: 0x23 leaves 0x20 behind. -/
theorem test_status_clears :
    statusOf (exec .status { State.reset with status := 0x23 }) = some 0x20 := by decide
/-- R144, P4 step 8: the pattern is not there. -/
theorem test_lookup_not_found : ∃ t, exec (.lookup (zeroBut 0 1)) State.reset = .next t ∧ t.status = 0x50 := by
  have h : matchSet State.reset (zeroBut 0 1) = [] := by
    refine List.filter_eq_nil_iff.mpr fun a _ => ?_
    rw [blank_keyAt rfl, decide_eq_true_eq]
    exact zeroKey_ne
  refine ⟨_, rfl, ?_⟩
  rw [find, h]
  rfl
/-- R150: 256 draws. -/
theorem test_noise : ∃ t, exec .noise State.reset = .next t ∧ t.rng = 256 ∧ t.status = 0 := ⟨_, rfl, rfl, by decide⟩

/-- R67: working state does not survive a reset. -/
theorem test_reset_keeps_no_working_state :
    (resetBlock { State.reset with curop := 0x55, tlast := 7, txcrc := 1, status := 0x23, rxcnt := 3 }).curop = 0 ∧
    (resetBlock { State.reset with curop := 0x55, tlast := 7, txcrc := 1, status := 0x23, rxcnt := 3 }).tlast = 0 ∧
    (resetBlock { State.reset with curop := 0x55, tlast := 7, txcrc := 1, status := 0x23, rxcnt := 3 }).status = 0 :=
  ⟨rfl, rfl, rfl⟩

/-! ### Witnesses: the hypotheses of each statement that has any, met together -/

/-- The block after reset with one payload's frame on the link. -/
def sending (c : Config) (payload : List Byte) : State :=
  { State.reset with cfg := c, link := arriving (frame c.crc payload) }

theorem sending_delivers (c : Config) (payload : List Byte) :
    (sending c payload).link = arriving (frame c.crc payload) ++ [] ∧
    Delivers (sending c payload).cfg payload (arriving (frame c.crc payload)) ∧
    StartsAtOnce (arriving (frame c.crc payload)) :=
  ⟨by simp [sending], delivers_arriving c payload, startsAtOnce_arriving c payload⟩

/-- Any bytes, right or wrong, all available at once. -/
theorem carries_arriving (l : List Byte) : Carries l (arriving (symbols l)) :=
  ⟨arriving (l.map LinkAns.byte), 0, by simp [arriving, symbols], by simp, by simp⟩

theorem pair_of_snd {α β : Type} {p : α × β} {b : β} (h : p.2 = b) : ∃ a, p = (a, b) := ⟨p.1, by rw [← h]⟩

theorem exec_next (i : Instr) (s : State) : ∃ t, exec i s = .next t := by cases i <;> exact ⟨_, rfl⟩

/-- A quiet block whose vector is not the identity. -/
def quietState : State := { State.reset with perm := vectorRev, sidx := vectorRev }

theorem compareAlong_self (l : List Byte) (k : Key) : compareAlong l k k = .eq := by
  induction l with
  | nil => rfl
  | cons j l ih => simp [compareAlong, ih]

theorem quietState_sorted : IndexSorted quietState := by
  refine ⟨vectorRev_count, List.pairwise_iff_getElem.mpr fun i j _ _ _ => ?_⟩
  rw [blank_keyAt rfl, blank_keyAt rfl, compareKeys, compareAlong_self]
  simp

/-- `DecodeOfEncode`, one command of each row; `OpcodeDispatch`, both clauses with a premise of their own. -/
theorem witness_DecodeOfEncode :
    withStatus.wf = true ∧ (Instr.lookup zeroKey).wf withStatus = true ∧ Instr.prime.wf withStatus = true ∧
    Instr.write.wf withStatus = true ∧ Instr.erase.wf withStatus = true ∧ Instr.noise.wf withStatus = true ∧
    Instr.get.wf withStatus = true ∧ Instr.put.wf withStatus = true ∧ Instr.status.wf withStatus = true ∧
    (Instr.reserved 0xFF).wf withStatus = true := by decide
theorem witness_EncodeOfDecode :
    decode withStatus zeroKey.toList = .ok (.lookup zeroKey) ∧ decode withStatus [0x77] = .ok .status ∧
    decode withStatus [0x12] = .ok (.reserved 0x12) := ⟨by simp [decode], rfl, rfl⟩
theorem witness_OpcodeDispatch :
    withStatus.wf = true ∧ withStatus.opStatus = some 0x77 ∧ (0x12 : Byte) ∉ sixOpcodes ∧
    withStatus.opStatus ≠ some 0x12 ∧ (0x65 : Byte) ∉ sixOpcodes ∧ (0x67 : Byte) ∉ sixOpcodes := by decide
/-- `ClassificationByLength`, `ReceiveSuccess`: both lengths. -/
theorem witness_ClassificationByLength :
    (∃ t, receive 256 1 (fed (symbols [0x33, 0xE7, 0xC0])) = (t, .ok 1)) ∧
    (∃ t, receive 256 1 (fed (symbols (zeroKey.toList ++ [0x41, 0xE8]))) = (t, .ok 256)) := by
  have h1 : (receive 256 1 (fed (symbols [0x33, 0xE7, 0xC0]))).2 = .ok 1 := by decide +kernel
  have h2 : (receive 256 1 (fed (symbols (zeroKey.toList ++ [0x41, 0xE8])))).2 = .ok 256 := by decide +kernel
  exact ⟨pair_of_snd h1, pair_of_snd h2⟩
theorem witness_ReceiveSuccess : ∃ t, receive 2 0 (fed (symbols [0x00, 0x05, 0x4D, 0xAA])) = (t, .ok 2) := by
  have h : (receive 2 0 (fed (symbols [0x00, 0x05, 0x4D, 0xAA]))).2 = .ok 2 := by decide +kernel
  exact pair_of_snd h
/-- `OperandDecodeOfEncode`: a buffer of zeros holds each operand of zeros; address 31 under both orders. -/
theorem witness_OperandDecodeOfEncode :
    rxSlice State.reset 0 256 = encodePrime zeroKey ∧ rxSlice State.reset 0 513 = encodeWrite 0 zeroKey zeroKey ∧
    rxSlice { State.reset with rxbuf := State.reset.rxbuf.setIfInBounds 1 31 } 0 2 = encodeGet .big 31 ∧
    rxSlice { State.reset with rxbuf := State.reset.rxbuf.setIfInBounds 0 31 } 0 2 = encodeGet .little 31 ∧
    rxSlice State.reset 0 1026 = encodePut .big 0 (Vector.replicate 1024 0) := by decide +kernel
theorem witness_ChecksumSeesOneChangedByte :
    defaultConfig.crc.poly.getLsbD 0 = true ∧ (0x33 : Byte) ≠ 0x32 := by decide
theorem witness_ChecksumAffine :
    List.zipWith (· ^^^ ·) [(0x33 : Byte), 0x01] [0x32, 0x01] = List.zipWith (· ^^^ ·) [(0x45 : Byte), 0xFF] [0x44, 0xFF] := by
  decide
/-- `ReceiveOnIdleLink`: an empty link, and a first answer `NoData` with a frame behind it. -/
theorem witness_ReceiveOnIdleLink :
    State.reset.link = [] ∧
    ∃ e rest, (fed (.noData :: symbols [0x33, 0xE7, 0xC0])).link = e :: rest ∧ e.ans = .noData :=
  ⟨rfl, _, _, rfl, rfl⟩
theorem witness_LoopbackDeliversThePayload :
    ∃ (s : State) (evs rest : List LinkEvent), s.link = evs ++ rest ∧ Delivers s.cfg [0x06] evs ∧ StartsAtOnce evs :=
  ⟨sending defaultConfig [0x06], _, [], sending_delivers _ _⟩
/-- `CorruptedByteIsRefused`: S2 of the spec, `32 E7 C0` for `33 E7 C0`, and the last checksum byte. -/
theorem witness_CorruptedByteIsRefused :
    packet defaultConfig.crc [0x33] = [] ++ 0x33 :: [0xE7, 0xC0] ∧
    Carries ([] ++ 0x32 :: [0xE7, 0xC0]) (arriving (symbols [0x32, 0xE7, 0xC0])) ∧
    StartsAtOnce (arriving (symbols [0x32, 0xE7, 0xC0])) ∧
    packet defaultConfig.crc [0x33] = [0x33, 0xE7] ++ 0xC0 :: [] ∧
    Carries ([0x33, 0xE7] ++ 0xC1 :: []) (arriving (symbols [0x33, 0xE7, 0xC1])) :=
  ⟨by decide +kernel, carries_arriving _, ⟨_, _, rfl, by simp⟩, by decide +kernel, carries_arriving _⟩
/-- `AbortsAtTheSymbolThatRaisesThem`, each clause: for `Receive(2, 0)`, a fifth byte, an `EOF` after three, an `Err` at
once. -/
theorem witness_AbortsAtTheSymbolThatRaisesThem :
    (maxTot 2 0 = 4 ∧ ∃ body, symbolsIn body = ([0x00, 0x05, 0x4D, 0xAA] : List Byte).map LinkAns.byte ∧
      timely 0 body = true ∧ StartsAtOnce (body ++ [⟨0, .byte 0x00⟩])) ∧
    (∃ body, symbolsIn body = ([0x33, 0xE7, 0xC0] : List Byte).map LinkAns.byte ∧ timely 0 body = true ∧
      StartsAtOnce (body ++ [⟨499, .eof⟩])) ∧
    StartsAtOnce ([] ++ [⟨0, .err⟩]) :=
  ⟨⟨rfl, arriving (([0x00, 0x05, 0x4D, 0xAA] : List Byte).map LinkAns.byte), symbolsIn_arriving_bytes _, timely_arriving_bytes _ _, _, _, rfl, by simp⟩,
    ⟨arriving (([0x33, 0xE7, 0xC0] : List Byte).map LinkAns.byte), symbolsIn_arriving_bytes _, timely_arriving_bytes _ _, _, _, rfl, by simp⟩,
    _, _, rfl, by simp⟩
/-- `InactivityTimeout`: two polls that find nothing, at 200 and 499 ms after the byte (the second clause's silent link
among them), and one 1 ms later, at the bound. -/
theorem witness_InactivityTimeout :
    symbolsIn [⟨200, .noData⟩, ⟨299, .noData⟩] = [] ∧ timely 0 [⟨200, .noData⟩, ⟨299, .noData⟩] = true ∧
    tInact ≤ (([⟨200, .noData⟩, ⟨299, .noData⟩] : List LinkEvent).map LinkEvent.dt).sum + 1 ∧
    symbolsIn [⟨0, .byte 0x33⟩, ⟨499, .noData⟩] = ([0x33] : List Byte).map LinkAns.byte ∧
    timely 0 [⟨0, .byte 0x33⟩, ⟨499, .noData⟩] = true ∧ (1 : Nat) < maxTot 256 1 ∧
    StartsAtOnce ([⟨0, .byte 0x33⟩, ⟨499, .noData⟩] ++ [⟨0, .byte 0xE7⟩]) :=
  ⟨by decide, by decide, by decide, by decide, by decide, by decide, _, _, rfl, by simp⟩
theorem witness_AbortEffect : ∃ t, receive 256 1 (fed (symbols [0x33, 0xE7, 0xC1])) = (t, .fail .crc) := by
  have h : (receive 256 1 (fed (symbols [0x33, 0xE7, 0xC1]))).2 = .fail .crc := by decide +kernel
  exact pair_of_snd h
/-- `NoResidue`: a block that has just failed, and one after reset, before the same frame. -/
theorem witness_NoResidue :
    ({ State.reset with rxcnt := 2, tlast := 7, status := 0x03, link := arriving (symbols [0x33, 0xE7, 0xC0]) } : State).link
      = (fed (symbols [0x33, 0xE7, 0xC0])).link := rfl
/-- `OperandWait`: an operand after 499 ms of silence; a silence of exactly 500 ms; an empty link. -/
theorem witness_OperandWait :
    Delivers defaultConfig [0x00, 0x05] (⟨499, .noData⟩ :: arriving (frame defaultConfig.crc [0x00, 0x05])) ∧
    (symbolsIn [⟨499, .noData⟩] = [] ∧ timely 0 [⟨499, .noData⟩] = true ∧
      tInact ≤ ([⟨499, .noData⟩].map LinkEvent.dt).sum + 1) ∧
    (symbolsIn State.reset.link = [] ∧ timely 0 State.reset.link = true) := by
  refine ⟨⟨⟨499, .noData⟩ :: arriving ((packet defaultConfig.crc [0x00, 0x05]).map LinkAns.byte), 0, ?_, ?_, ?_⟩,
    by decide, by decide⟩
  · simp [arriving, frame]
  · simpa [symbolsIn] using symbolsIn_arriving_bytes (packet defaultConfig.crc [0x00, 0x05])
  · simp [timely, tInact]
/-- `CompareTotalPreorder`: three keys in order under the identity, the first two apart. -/
theorem witness_CompareTotalPreorder :
    compareKeys vectorI (zeroBut 0 1) (zeroBut 0 2) = .lt ∧ compareKeys vectorI (zeroBut 0 2) (zeroBut 0 2) ≠ .gt :=
  ⟨by decide +kernel, by rw [compareKeys, compareAlong_self]; simp⟩
theorem witness_CompareEqOnlyForEqualKeys : PermValid quietState ∧ PermValid State.reset :=
  ⟨vectorRev_count, fun v => by
    have h : State.reset.perm.toList = allBytes := by decide +kernel
    rw [h]; exact List.count_eq_one_of_mem allBytes_nodup (mem_allBytes v)⟩
theorem witness_EveryLegalIndexIsPossible : IndexSorted { State.reset with perm := vectorRev, sidx := vectorRev } :=
  quietState_sorted
theorem witness_BinarySearchMeetsFind : PermValid quietState ∧ IndexSorted quietState :=
  ⟨vectorRev_count, quietState_sorted⟩
theorem witness_EveryMatchingSlotIsPossible : keyAt State.reset 0 = zeroKey ∧ keyAt State.reset 255 = zeroKey :=
  ⟨blank_keyAt rfl 0, blank_keyAt rfl 255⟩
/-- `RecordReadBack`, and the address clauses of `GetSendsTheRecord`, `PutStoresTheRecord`, `PutRecordIsRead`. -/
theorem witness_RecordReadBack :
    (31 : Word).toNat ≤ 31 ∧ 31 < (32 : Word).toNat ∧ (0 : Word).toNat ≤ 31 ∧ 31 < (0xFFFF : Word).toNat := by decide
theorem witness_LookupSendsTheResponse : ∃ a, keyAt State.reset a = zeroKey := ⟨0, blank_keyAt rfl 0⟩
theorem witness_LookupNotFound : ∀ a, keyAt State.reset a ≠ zeroBut 0 1 := fun a => by
  rw [blank_keyAt rfl]; exact zeroKey_ne
/-- `PrimeImportsThePermutation`: a valid vector and an invalid one. -/
theorem witness_PrimeImportsThePermutation :
    (∃ (s : State) (evs rest : List LinkEvent), s.link = evs ++ rest ∧ Delivers s.cfg (encodePrime vectorRev) evs ∧
      validPerm vectorRev = true) ∧
    (∃ (s : State) (evs rest : List LinkEvent), s.link = evs ++ rest ∧ Delivers s.cfg (encodePrime zeroKey) evs ∧
      validPerm zeroKey = false) :=
  ⟨⟨sending defaultConfig _, _, [], (sending_delivers _ _).1, (sending_delivers _ _).2.1, test_valid_perm.1⟩,
    ⟨sending defaultConfig _, _, [], (sending_delivers _ _).1, (sending_delivers _ _).2.1, test_valid_perm.2.2⟩⟩
/-- `WriteEnrollsThePair`, `EnrolledKeyIsFound`: a key no slot holds, into the last slot. -/
theorem witness_WriteEnrollsThePair : ∃ (s : State) (evs rest : List LinkEvent), s.link = evs ++ rest ∧
    Delivers s.cfg (encodeWrite 255 (zeroBut 0 1) vectorRev) evs ∧ ∀ b, b ≠ 255 → keyAt s b ≠ zeroBut 0 1 :=
  ⟨sending defaultConfig _, _, [], (sending_delivers _ _).1, (sending_delivers _ _).2.1, fun b _ => by
    rw [blank_keyAt rfl]; exact zeroKey_ne⟩
/-- `GetSendsTheRecord`: addresses 31 and 32, under the two byte orders. -/
theorem witness_GetSendsTheRecord :
    (∃ (s : State) (evs rest : List LinkEvent), s.link = evs ++ rest ∧
      Delivers s.cfg (encodeGet s.cfg.blockAddrOrder 31) evs) ∧
    (∃ (s : State) (evs rest : List LinkEvent), s.cfg.blockAddrOrder = .little ∧ s.link = evs ++ rest ∧
      Delivers s.cfg (encodeGet s.cfg.blockAddrOrder 32) evs) :=
  ⟨⟨sending defaultConfig _, _, [], (sending_delivers _ _).1, (sending_delivers _ _).2.1⟩,
    ⟨sending { defaultConfig with blockAddrOrder := .little } _, _, [], rfl, (sending_delivers _ _).1,
      (sending_delivers _ _).2.1⟩⟩
theorem witness_PutStoresTheRecord :
    (∃ (s : State) (evs rest : List LinkEvent), s.link = evs ++ rest ∧
      Delivers s.cfg (encodePut s.cfg.blockAddrOrder 31 (Vector.replicate 1024 0xAB)) evs) ∧
    (∃ (s : State) (evs rest : List LinkEvent), s.link = evs ++ rest ∧
      Delivers s.cfg (encodePut s.cfg.blockAddrOrder 32 (Vector.replicate 1024 0xAB)) evs) :=
  ⟨⟨sending defaultConfig _, _, [], (sending_delivers _ _).1, (sending_delivers _ _).2.1⟩,
    ⟨sending defaultConfig _, _, [], (sending_delivers _ _).1, (sending_delivers _ _).2.1⟩⟩
theorem witness_PutRecordIsRead : ∃ (s : State) (evs evs' rest : List LinkEvent), s.link = evs ++ (evs' ++ rest) ∧
    Delivers s.cfg (encodePut s.cfg.blockAddrOrder 31 (Vector.replicate 1024 0xAB)) evs ∧
    Delivers s.cfg (encodeGet s.cfg.blockAddrOrder 31) evs' :=
  ⟨{ State.reset with
      link := arriving (frame defaultConfig.crc (encodePut .big 31 (Vector.replicate 1024 0xAB))) ++
        (arriving (frame defaultConfig.crc (encodeGet .big 31)) ++ []) },
    _, _, [], rfl, delivers_arriving _ _, delivers_arriving _ _⟩
/-- `OperandFailureHasNoOtherEffect`: each of the four commands, on a frame of another length, NAK and silence. -/
theorem witness_OperandFailureHasNoOtherEffect :
    ∀ len ∈ [256, 513, 2, 1026], (∃ i, operandLength i = some len) ∧
      (∃ t, receiveOperand len (fed (symbols [0x33, 0xE7, 0xC0])) = (t, .fail .length)) := by
  have h : ∀ len ∈ [256, 513, 2, 1026], (receiveOperand len (fed (symbols [0x33, 0xE7, 0xC0]))).2 = .fail .length := by
    decide +kernel
  intro len hl
  refine ⟨?_, pair_of_snd (h len hl)⟩
  simp only [List.mem_cons, List.not_mem_nil, or_false] at hl
  rcases hl with rfl | rfl | rfl | rfl
  · exact ⟨.prime, rfl⟩
  · exact ⟨.write, rfl⟩
  · exact ⟨.get, rfl⟩
  · exact ⟨.put, rfl⟩
/-- The frame statements and `PrimePreservesEnrolledKeys`: every command has a next state, from every state. -/
theorem witness_Frames (i : Instr) : ∃ t, exec i State.reset = .next t := exec_next i State.reset
/-- Received operands, for the clauses on `LINK_ERR` of the frames of `prime`, `get`, `write` and `put`. -/
theorem witness_FrameOfPrimeAndGet :
    (receiveOperand 256 (fed (symbols (zeroKey.toList ++ [0x41, 0xE8])))).2 = .ok 256 ∧
    (receiveOperand 2 (fed (symbols [0x00, 0x05, 0x4D, 0xAA]))).2 = .ok 2 := by decide +kernel
theorem witness_FrameOfWrite :
    (receiveOperand 513 (fed (symbols
      (0x05 :: (List.replicate 256 0x00 ++ List.replicate 256 0xFF ++ [0xAF, 0xB8]))))).2 = .ok 513 := by decide +kernel
theorem witness_FrameOfPut :
    (receiveOperand 1026 (fed (symbols (0x00 :: 0x05 :: (List.replicate 1024 0xAB ++ [0x8C, 0xFE]))))).2 = .ok 1026 := by
  decide +kernel
/-- An address outside the 256 slots, and one outside slot 5 and record 5, for the store clauses of the frames. -/
theorem witness_FrameOfErase :
    (∀ slot : Byte, ¬ (slotBase slot ≤ 131072 ∧ 131072 < slotBase slot + 512)) ∧
    ¬ (slotBase 5 ≤ 3072 ∧ 3072 < slotBase 5 + 512) ∧ ¬ (recordBase 5 ≤ 6144 ∧ 6144 < recordBase 5 + 1024) := by
  refine ⟨fun slot => ?_, by decide, by decide⟩
  have := slotBase_fits slot
  omega
/-- `ErasedKeysAreNotFound`: a key that is not the all-zero one. -/
theorem witness_ErasedKeysAreNotFound : zeroBut 0 1 ≠ zeroKey := zeroKey_ne.symm
theorem witness_StepRunsTheDecodedCommand :
    ∃ t, receive 256 1 { fed (symbols [0x33, 0xE7, 0xC0]) with dstate := .awaitingPacket } = (t, .ok 1) ∧
      decode t.cfg (rxSlice t 0 1) = .ok .erase := by
  have h : (receive 256 1 { fed (symbols [0x33, 0xE7, 0xC0]) with dstate := .awaitingPacket }).2 = .ok 1 := by
    decide +kernel
  have k : rxSlice (receive 256 1 { fed (symbols [0x33, 0xE7, 0xC0]) with dstate := .awaitingPacket }).1 0 1 = [0x33] := by
    decide +kernel
  generalize receive 256 1 { fed (symbols [0x33, 0xE7, 0xC0]) with dstate := .awaitingPacket } = r at h k
  exact ⟨r.1, Prod.ext rfl h, by rw [k]; rfl⟩
/-- `DeliveredCommandRuns`: a lookup and a `status`. -/
theorem witness_DeliveredCommandRuns :
    (∃ (s : State) (evs rest : List LinkEvent), s.cfg.wf = true ∧ Instr.status.wf s.cfg = true ∧ s.link = evs ++ rest ∧
      Delivers s.cfg (encode s.cfg .status) evs ∧ StartsAtOnce evs) ∧
    (∃ (s : State) (evs rest : List LinkEvent), s.cfg.wf = true ∧ s.link = evs ++ rest ∧
      Delivers s.cfg (encode s.cfg (.lookup zeroKey)) evs ∧ StartsAtOnce evs) :=
  ⟨⟨sending withStatus [0x77], _, [], rfl, rfl, sending_delivers _ _⟩,
    ⟨sending defaultConfig _, _, [], rfl, sending_delivers _ _⟩⟩
/-- `SilentReturn`: no frame, and a failed one. -/
theorem witness_SilentReturn :
    (∃ t, receive 256 1 { State.reset with dstate := .awaitingPacket } = (t, .noFrame)) ∧
    (∃ t, receive 256 1 { fed (symbols [0x33, 0xE7, 0xC1]) with dstate := .awaitingPacket } = (t, .fail .crc)) := by
  have h : (receive 256 1 { fed (symbols [0x33, 0xE7, 0xC1]) with dstate := .awaitingPacket }).2 = .fail .crc := by
    decide +kernel
  exact ⟨⟨_, rfl⟩, pair_of_snd h⟩
/-- `StepKeepsQuiet`, `ReplyIsTheLastAction`, `StepOnlyGoesForward`: a quiet state that a step leaves. -/
theorem witness_StepKeepsQuiet : Quiet quietState ∧ ∃ t, step quietState = .next t :=
  ⟨⟨vectorRev_count, quietState_sorted, ⟨by decide, by decide, by decide, by decide⟩,
    ⟨reset_stores_canonical.1, reset_stores_canonical.2.1, reset_stores_canonical.2.2.1, reset_stores_canonical.2.2.2⟩,
    by decide, rfl, rfl⟩, _, rfl⟩
/-- `ResetSequence`, two states before a reset that hold different working state over the same store. -/
theorem witness_ResetSequence :
    ({ State.reset with curop := 0x55, tlast := 7 } : State).keystore = State.reset.keystore ∧
    ({ State.reset with curop := 0x55, tlast := 7 } : State).draws = State.reset.draws := ⟨rfl, rfl⟩
/-- The same for a pass that runs a command. -/
theorem witness_ReplyIsTheLastAction : ∃ t, step (fedFrames [[0x99, 0xF3, 0x60]]) = .next t := by
  cases h : step (fedFrames [[0x99, 0xF3, 0x60]]) with
  | next t => exact ⟨t, rfl⟩
  | fault r => have := test_reserved.1; rw [h] at this; simp [statusOf] at this
  | refused r => have := test_reserved.1; rw [h] at this; simp [statusOf] at this

end Sys2Proof.Tests
end

section
/-! The checksum as bytes (R53): each byte by its value, the calls that send a payload with its two checksum bytes
written out, and the received checksum read from the receive buffer. -/

namespace Sys2Proof.Machine

/-! ### The two bytes of a checksum, by value -/

theorem highByte_toNat (c : Word) : (c.extractLsb' 8 8).toNat = c.toNat / 256 := by
  have hc := joinBytes_toNat (c.extractLsb' 8 8) (c.extractLsb' 0 8)
  rw [joinBytes_extract] at hc
  omega

theorem lowByte_toNat (c : Word) : (c.extractLsb' 0 8).toNat = c.toNat % 256 := by
  have hc := joinBytes_toNat (c.extractLsb' 8 8) (c.extractLsb' 0 8)
  rw [joinBytes_extract] at hc
  omega

/-! ### The checksum sent and received -/

theorem frameCalls_eq (p : CrcParams) (payload : List Byte) :
    frameCalls p payload = payload.map Call.encByte ++
      [.encByte ((crc16 p payload).extractLsb' 8 8), .encByte ((crc16 p payload).extractLsb' 0 8), .encEof] := by
  simp [frameCalls, packet, crcBytes]

theorem rxChecksum_eq_joinBytes (s : State) {n : Nat} (h : n + 1 < 1028) :
    rxChecksum s n = joinBytes s.rxbuf[n] s.rxbuf[n + 1] := by
  simp [rxChecksum, List.getD_eq_getElem?_getD, h, Nat.lt_of_succ_lt h]

/-- Settles O9: the bytes sent are those of `frameCalls_eq`, and the checksum received is `joinBytes` of two bytes of
the receive buffer. -/
theorem checksumTravelsBigEndian : Obligations.ChecksumTravelsBigEndian := by
  refine ⟨fun p s => ⟨_, _, highByte_toNat _, lowByte_toNat _, ?_⟩, fun s n h => ?_⟩
  · rw [send_calls, frameCalls_eq, List.append_assoc]
  · rw [rxChecksum_eq_joinBytes s h, joinBytes_toNat]

end Sys2Proof.Machine
end

section
/-! A `Receive` that answers `Ok(n)` (R96, R99): the answers its loop consumed up to `EOF`, the state it leaves, and
the packet in the receive buffer. -/

namespace Sys2Proof.Machine

/-- A loop of R93 that leaves at `EOF` has consumed its accepted bytes, `NoData` apart, and that one `EOF`. -/
theorem scan_eof_consumed {m : Nat} {link : List LinkEvent} {cnt : Nat} {acc : List Byte} {tl now : Nat}
    (h : (scan m link cnt acc tl now).fin = .eof) :
    ∃ body dt l, link = body ++ ⟨dt, .eof⟩ :: (scan m link cnt acc tl now).rest ∧
      (scan m link cnt acc tl now).bytes = acc.reverse ++ l ∧ symbolsIn body = l.map LinkAns.byte := by
  induction link generalizing cnt acc tl now with
  | nil => simp [scan] at h
  | cons e link ih =>
    obtain ⟨dt, ans⟩ := e
    simp only [scan, demand_eq] at h ⊢
    cases ans with
    | byte b =>
      by_cases hc : cnt = m
      · simp [hc] at h
      · simp only [hc, if_false] at h ⊢
        obtain ⟨body, d, l, hl, hb, hs⟩ := ih h
        exact ⟨⟨dt, .byte b⟩ :: body, d, b :: l, congrArg _ hl, by simp [hb], by simpa [symbolsIn] using hs⟩
    | eof => exact ⟨[], dt, [], rfl, by simp, rfl⟩
    | err => simp at h
    | noData =>
      by_cases ht : tInact ≤ now + dt - tl
      · simp [ht] at h
      · simp only [ht, if_false] at h ⊢
        obtain ⟨body, d, l, hl, hb, hs⟩ := ih h
        exact ⟨⟨dt, .noData⟩ :: body, d, l, congrArg _ hl, hb, by simpa [symbolsIn] using hs⟩

/-- What `Ok(n)` says of the loop of R93 and of the state: the loop left at `EOF` with `n + 2` bytes, `n` is one of the
two lengths, and the checksum received is the payload's. -/
theorem receive_ok {lenP lenA n : Nat} {s t : State} (h : receive lenP lenA s = (t, .ok n)) :
    ∃ r, r = scan (maxTot lenP lenA) s.link 0 [] s.tlast s.now ∧ r.fin = .eof ∧ t = decClear (commitScan r s) ∧
      r.bytes.length = n + 2 ∧ (n = lenP ∨ n = lenA) ∧ crc16 s.cfg.crc (rxSlice t 0 n) = rxChecksum t n := by
  unfold receive at h
  split at h
  · cases h
  · split at h
    · cases h
    · refine ⟨_, rfl, ?_⟩
      generalize scan (maxTot lenP lenA) s.link 0 [] s.tlast s.now = r at h ⊢
      rcases endReceive_cases lenP lenA r.fin (commitScan r s) with ⟨c, hc⟩ | ⟨hfin, hok, hlen, hcrc⟩
      · cases hc.symm.trans h
      · rw [(commitScan_linkOnly r s).1.cfg] at hcrc
        cases hok.symm.trans h
        rw [commitScan_rxcnt] at hlen hcrc ⊢
        exact ⟨hfin, rfl, by omega, by omega, hcrc⟩

/-- Settles O13: `receive_ok` gives the checks that passed, and the bytes `scan_eof_consumed` finds on the link are
those the receive buffer was filled with. -/
theorem receiveSuccess : Obligations.ReceiveSuccess := by
  intro lenP lenA n s t _ hP hA h
  obtain ⟨hstatus, hcalls⟩ := (receive_received lenP lenA s).ok n (by rw [h])
  obtain ⟨r, hr, hfin, rfl, hlen, hn, hcrc⟩ := receive_ok h
  rw [h] at hstatus hcalls
  have hbuf : rxSlice (decClear (commitScan r s)) 0 (n + 2) = r.bytes := by
    rw [rxSlice_fill (t := decClear (commitScan r s)) (commitScan_rxbuf r s) (by omega) hlen.ge, ← hlen,
      List.take_length]
  refine ⟨hn, rfl, hcalls, by simpa using hlen, hstatus, hcrc, ?_⟩
  rw [hbuf, decClear_link, commitScan_link]
  subst hr
  obtain ⟨body, dt, l, hlink, hbytes, hsym⟩ := scan_eof_consumed hfin
  exact ⟨body, dt, hlink, by rw [hbytes]; exact hsym⟩

end Sys2Proof.Machine
end

section
/-! The comparison of keys (R110, R112): it is the lexicographic order of the keys' bytes, as numbers, in the order of
the vector. -/

namespace Sys2Proof.Machine

/-- The numbers that `Compare` looks at, in its order: the bytes of a key at the positions of a list (R110),
unsigned (R112). -/
def bytesAlong (l : List Byte) (k : Key) : List Nat := l.map fun j => (keyByte k j).toNat

/-- Each outcome of `Compare` says how the two keys' bytes stand to each other in the order of number lists. -/
theorem compareAlong_compares (l : List Byte) (a b : Key) :
    (compareAlong l a b).Compares (bytesAlong l a) (bytesAlong l b) := by
  unfold bytesAlong
  induction l with
  | nil => exact rfl
  | cons j l ih =>
    simp only [compareAlong, BitVec.lt_def, List.map_cons]
    rcases lt_trichotomy (keyByte a j).toNat (keyByte b j).toNat with h | h | h
    · rw [if_pos h]
      exact List.cons_lt_cons_iff.mpr (.inl h)
    · rw [h]
      cases hc : compareAlong l a b <;> simpa [Ordering.Compares, hc] using ih
    · rw [if_neg h.not_gt, if_pos h]
      exact List.cons_lt_cons_iff.mpr (.inl h)

theorem compareKeys_compares (perm : Bytes 256) (a b : Key) :
    (compareKeys perm a b).Compares (bytesAlong perm.toList a) (bytesAlong perm.toList b) :=
  compareAlong_compares perm.toList a b

theorem bytesAlong_lt_iff (perm : Bytes 256) (a b : Key) :
    bytesAlong perm.toList a < bytesAlong perm.toList b ↔ ∃ (k : Nat) (h : k < 256),
      (∀ (j : Nat) (hj : j < k), keyByte a perm[j] = keyByte b perm[j]) ∧
      (keyByte a perm[k]).toNat < (keyByte b perm[k]).toNat := by
  simp [List.lt_iff_exists, bytesAlong, BitVec.toNat_inj]

theorem bytesAlong_eq_iff (perm : Bytes 256) (a b : Key) :
    bytesAlong perm.toList a = bytesAlong perm.toList b ↔
      ∀ (k : Nat) (h : k < 256), keyByte a perm[k] = keyByte b perm[k] := by
  simp [List.ext_getElem_iff, bytesAlong, BitVec.toNat_inj]

/-- Settles O21: each outcome is one of `<`, `=`, `>` of the bytes along the vector (`compareKeys_compares`), and two
number lists of one length are ordered by the first place where they differ. -/
theorem compareDecidedAtFirstDifference : Obligations.CompareDecidedAtFirstDifference := by
  intro perm a b
  have hc := compareKeys_compares perm a b
  refine ⟨hc.eq_lt.trans (bytesAlong_lt_iff perm a b), hc.eq_gt.trans ?_, hc.eq_eq.trans (bytesAlong_eq_iff perm a b)⟩
  simpa only [eq_comm (a := keyByte b _)] using bytesAlong_lt_iff perm b a

end Sys2Proof.Machine
end

section
/-! `RebuildIndex` (R113, R114): whatever the ranking of slots whose keys compare `Eq`, the index it gives is sorted. -/

namespace Sys2Proof.Machine

/-! ### The order in which slots are listed -/

/-- What the entries are sorted by: the key's bytes along the vector, then the rank of the slot, then the slot. -/
def sortKey (perm : Bytes 256) (rank : Nat → Nat) (x : Byte × Key) : List Nat ×ₗ Nat ×ₗ Nat :=
  toLex (bytesAlong perm.toList x.2, toLex (rank x.1.toNat, x.1.toNat))

theorem entryBefore_iff_sortKey_le (perm : Bytes 256) (rank : Nat → Nat) (x y : Byte × Key) :
    entryBefore perm rank x y = true ↔ sortKey perm rank x ≤ sortKey perm rank y := by
  have hc := compareKeys_compares perm x.2 y.2
  rw [entryBefore, sortKey, sortKey, Prod.Lex.toLex_le_toLex, Prod.Lex.toLex_le_toLex]
  cases h : compareKeys perm x.2 y.2 with
  | lt => simp [hc.eq_lt.mp h]
  | gt => simp [(hc.eq_gt.mp h).not_gt, (hc.eq_gt.mp h).ne']
  | eq => by_cases hr : rank x.1.toNat = rank y.1.toNat <;> simp [hc.eq_eq.mp h, hr, BitVec.le_def]

theorem compareKeys_ne_gt_of_entryBefore {perm : Bytes 256} {rank : Nat → Nat} {x y : Byte × Key}
    (h : entryBefore perm rank x y = true) : compareKeys perm x.2 y.2 ≠ .gt := by
  intro hgt
  simp [entryBefore, hgt] at h

/-! ### The sorted slots -/

theorem mem_entries {s : State} {x : Byte × Key} (h : x ∈ entries s) : x.2 = keyAt s x.1 := by
  obtain ⟨a, -, rfl⟩ := List.mem_map.mp h
  rfl

theorem insertionSort_entries_pairwise (s : State) (rank : Nat → Nat) :
    ((entries s).insertionSort fun x y => entryBefore s.perm rank x y = true).Pairwise
      fun x y => entryBefore s.perm rank x y = true := by
  have total : Std.Total fun x y => entryBefore s.perm rank x y = true :=
    ⟨fun x y => by simpa only [entryBefore_iff_sortKey_le] using le_total _ _⟩
  have trans : IsTrans _ fun x y => entryBefore s.perm rank x y = true :=
    ⟨fun x y z => by simpa only [entryBefore_iff_sortKey_le] using le_trans⟩
  exact List.pairwise_insertionSort _ _

theorem sortedSlots_pairwise (s : State) (rank : Nat → Nat) :
    (sortedSlots s rank).Pairwise fun a b => compareKeys s.perm (keyAt s a) (keyAt s b) ≠ .gt := by
  refine List.pairwise_map.mpr ((insertionSort_entries_pairwise s rank).imp_of_mem fun {x y} hx hy h => ?_)
  rw [List.mem_insertionSort] at hx hy
  rw [← mem_entries hx, ← mem_entries hy]
  exact compareKeys_ne_gt_of_entryBefore h

/-! ### The index -/

/-- `INDEX_SORTED` (R24) wherever the index is the one sorted for the state's own vector and Key Store, by any
ranking. -/
theorem indexSorted_of_sidx_eq {s t : State} {rank : Nat → Nat} (hsidx : t.sidx = sortedIndex s rank)
    (hperm : t.perm = s.perm) (hkeys : t.keystore = s.keystore) : IndexSorted t := by
  rw [IndexSorted, hsidx, hperm, keyAt_congr hkeys, sortedIndex_toList]
  exact ⟨fun a => ((sortedSlots_perm s rank).count_eq a).trans (allBytes_count a), sortedSlots_pairwise s rank⟩

theorem rebuildIndex_indexSorted (s : State) : IndexSorted (rebuildIndex s) :=
  indexSorted_of_sidx_eq (s := s) (rank := Config.tieRank s.draws) rfl rfl rfl

/-- Settles O24: the index is sorted (`rebuildIndex_indexSorted`), and `RebuildIndex` writes the two fields named. -/
theorem rebuildSortsTheIndex : Obligations.RebuildSortsTheIndex :=
  fun s => ⟨rebuildIndex_indexSorted s, rfl⟩

end Sys2Proof.Machine
end

section
/-! `ValidPerm` (R118): every value exactly once, and no value twice, are the same of 256 bytes. -/

namespace Sys2Proof.Machine

theorem validPerm_iff_count (v : Key) : validPerm v = true ↔ ∀ b : Byte, v.toList.count b = 1 := by
  simp [validPerm, mem_allBytes]

/-- A key without repetition is a rearrangement of all 256 byte values: it has as many bytes as there are values. -/
theorem perm_allBytes_of_nodup {v : Key} (h : v.toList.Nodup) : v.toList.Perm allBytes :=
  (List.subperm_of_subset h fun b _ => mem_allBytes b).perm_of_length_le (by simp [allBytes])

theorem count_eq_one_iff_nodup (v : Key) : (∀ b : Byte, v.toList.count b = 1) ↔ v.toList.Nodup :=
  ⟨fun h => List.nodup_iff_count_eq_one.mpr fun b _ => h b,
   fun h b => ((perm_allBytes_of_nodup h).count_eq b).trans (allBytes_count b)⟩

theorem nodup_iff_getElem_inj (v : Key) :
    v.toList.Nodup ↔ ∀ (i j : Nat) (hi : i < 256) (hj : j < 256), v[i] = v[j] → i = j := by
  constructor
  · intro h i j hi hj hv
    exact (h.getElem_inj_iff (hi := by simpa) (hj := by simpa)).mp (by simpa)
  · intro h
    refine List.nodup_iff_injective_getElem.mpr fun i j hv => Fin.ext ?_
    exact h i j (by simpa using i.isLt) (by simpa using j.isLt) (by simpa using hv)

/-- Settles O29: counts of 1 are `Nodup` (a key has as many bytes as there are values), and `Nodup` is injectivity of
the indices. -/
theorem validPermIsNoRepetition : Obligations.ValidPermIsNoRepetition := fun v =>
  ⟨validPerm_iff_count v, (validPerm_iff_count v).trans ((count_eq_one_iff_nodup v).trans (nodup_iff_getElem_inj v))⟩

end Sys2Proof.Machine
end

section
/-! The command loop (R140, R143, R145, R160): the dispatch on the opcode byte, the classification of an accepted first
packet by its length, and the return to `Idle` from every pass. -/

namespace Sys2Proof.Machine

/-! ### The dispatch on the opcode byte -/

theorem decode_singleton (c : Config) (op : Byte) : decode c [op] = .ok (decodeOpcode c op) := rfl

theorem decode_of_length_256 (c : Config) {p : List Byte} (h : p.length = 256) :
    decode c p = .ok (.lookup (toBytes 256 p)) := if_pos h

/-- A byte that is none of the six opcodes: only `OP_STATUS` has a meaning there (R145). -/
theorem decodeOpcode_of_notMem_sixOpcodes (c : Config) {op : Byte} (h : op ∉ sixOpcodes) :
    decodeOpcode c op = if c.opStatus = some op then .status else .reserved op := by
  simp only [sixOpcodes, List.mem_cons, List.not_mem_nil, or_false, not_or] at h
  obtain ⟨h11, h22, h33, h44, h55, h66⟩ := h
  simp only [decodeOpcode, if_neg h11, if_neg h22, if_neg h33, if_neg h44, if_neg h55, if_neg h66]

/-- The constraint of R7 on `OP_STATUS`. -/
theorem opStatus_notMem_sixOpcodes {c : Config} (hwf : c.wf = true) {op : Byte} (hop : c.opStatus = some op) :
    op ∉ sixOpcodes := by
  rw [Config.wf, Bool.and_eq_true] at hwf
  simpa [hop] using hwf.2

theorem decodeOpcode_ne_lookup (c : Config) (op : Byte) (k : Key) : decodeOpcode c op ≠ .lookup k := by
  unfold decodeOpcode
  split_ifs <;> exact Instr.noConfusion

/-- Settles O3: the six opcodes by evaluation, every other byte by `decodeOpcode_of_notMem_sixOpcodes`. -/
theorem opcodeDispatch : Obligations.OpcodeDispatch := by
  intro c hwf
  refine ⟨rfl, rfl, rfl, rfl, rfl, rfl, fun op hop => ?_, fun op hsix hop => ?_⟩
  · have hsix := opStatus_notMem_sixOpcodes hwf hop
    rw [decode_singleton, decodeOpcode_of_notMem_sixOpcodes c hsix, if_pos hop]
  · rw [decode_singleton, decodeOpcode_of_notMem_sixOpcodes c hsix, if_neg hop]

/-! ### The classification of the first packet -/

theorem rxSlice_zero_length (s : State) {n : Nat} (h : n ≤ 1028) : (rxSlice s 0 n).length = n := by
  simp [rxSlice, h]

theorem rxSlice_zero_one (s : State) : rxSlice s 0 1 = [s.rxbuf[0]] := by
  simp [rxSlice, List.take_one, List.head?_eq_getElem?]

/-- Settles O5: an accepted packet has one of the two lengths asked for (`receiveSuccess`), and each length leaves the
decoder one way to go. -/
theorem classificationByLength : Obligations.ClassificationByLength := by
  intro s t n h
  obtain ⟨hn, -, -, hcnt, -⟩ := receiveSuccess 256 1 n s t (by decide) (by decide) (by decide) h
  rcases hn with rfl | rfl
  · have hlen := rxSlice_zero_length t (n := 256) (by decide)
    exact .inl ⟨rfl, hcnt, _, toBytes_toList hlen, decode_of_length_256 _ hlen⟩
  · refine .inr ⟨rfl, hcnt, ?_, decodeOpcode_ne_lookup _ _⟩
    rw [rxSlice_zero_one, decode_singleton]

/-! ### The return to `Idle` -/

/-- An accepted first packet is a command: the decoder's one error does not occur in a pass (R140). -/
theorem decode_of_receive_ok {s t : State} {n : Nat} (h : receive 256 1 s = (t, .ok n)) :
    ∃ i, decode t.cfg (rxSlice t 0 n) = .ok i := by
  rcases classificationByLength s t n h with ⟨-, -, k, -, hdec⟩ | ⟨-, -, hdec, -⟩
  · exact ⟨_, hdec⟩
  · exact ⟨_, hdec⟩

/-- No arm of the dispatch faults or refuses, whatever its command meets (R160). -/
theorem thenIdle_exec (i : Instr) (s : State) : ∃ t, thenIdle (exec i s) = .next t ∧ t.dstate = .idle := by
  cases i <;> exact ⟨_, rfl, rfl⟩

theorem transact_of_decode_ok {s : State} {n : Nat} {i : Instr} (h : decode s.cfg (rxSlice s 0 n) = .ok i) :
    transact n s = thenIdle (exec i (enterTransaction n s)) := by
  rw [transact, h]

/-- Settles O55: a pass with no packet or a failed one returns to `Idle` at once (R142), and one with an accepted packet
runs the command that the packet is (`decode_of_receive_ok`). -/
theorem noFailureStopsTheLoop : Obligations.NoFailureStopsTheLoop := by
  intro s
  unfold step loopPass
  split
  · next t n h =>
    obtain ⟨i, hdec⟩ := decode_of_receive_ok h
    rw [transact_of_decode_ok hdec]
    exact thenIdle_exec i _
  · exact ⟨_, rfl, rfl⟩
  · exact ⟨_, rfl, rfl⟩

end Sys2Proof.Machine
end

section
/-! The encodings (R73, R74, R75, R77): first packets decode to the command they encode and to no other, and operand
packets give back the fields they were made of. -/

namespace Sys2Proof.Machine

/-! ### First packets -/

/-- Settles O1: by the rows of the opcode table; `status` and a reserved byte are the last two clauses of
`opcodeDispatch`. -/
theorem decodeOfEncode : Obligations.DecodeOfEncode := by
  intro c i hc hi
  obtain ⟨hprime, hwrite, herase, hnoise, hget, hput, hstatus, hreserved⟩ := opcodeDispatch c hc
  cases i with
  | lookup k => rw [encode, decode_of_length_256 c (by simp), toBytes_of_toList]
  | prime => exact hprime
  | write => exact hwrite
  | erase => exact herase
  | noise => exact hnoise
  | get => exact hget
  | put => exact hput
  | status =>
    obtain ⟨op, hop⟩ := Option.isSome_iff_exists.mp hi
    rw [encode, hop]
    exact hstatus op hop
  | reserved op =>
    simp only [Instr.wf, Bool.and_eq_true, Bool.not_eq_true', List.contains_eq_mem, decide_eq_false_iff_not,
      bne_iff_ne] at hi
    exact hreserved op hi.1 hi.2

/-- A byte of the opcode table: the command it decodes to has that byte as its first packet. -/
theorem encode_decodeOpcode_of_mem (c : Config) {op : Byte} (h : op ∈ sixOpcodes) :
    (decodeOpcode c op).wf c = true ∧ encode c (decodeOpcode c op) = [op] := by
  simp only [sixOpcodes, List.mem_cons, List.not_mem_nil, or_false] at h
  rcases h with rfl | rfl | rfl | rfl | rfl | rfl <;> exact ⟨rfl, rfl⟩

/-- Every opcode byte is the first packet of the command it decodes to (R78). -/
theorem encode_decodeOpcode (c : Config) (op : Byte) :
    (decodeOpcode c op).wf c = true ∧ encode c (decodeOpcode c op) = [op] := by
  by_cases hsix : op ∈ sixOpcodes
  · exact encode_decodeOpcode_of_mem c hsix
  · rw [decodeOpcode_of_notMem_sixOpcodes c hsix]
    by_cases hop : c.opStatus = some op
    · simp [hop, Instr.wf, encode]
    · simp [hop, Instr.wf, encode, hsix]

/-- Settles O2: a payload that decodes is 256 bytes, and then the pattern, or one byte (`encode_decodeOpcode`). -/
theorem encodeOfDecode : Obligations.EncodeOfDecode := by
  intro c payload i h
  unfold decode at h
  split at h
  · next hlen =>
    cases h
    exact ⟨rfl, toBytes_toList hlen⟩
  · split at h
    · cases h
      exact encode_decodeOpcode c _
    · cases h

/-- Settles O4, by evaluation. -/
theorem decodedWords : Obligations.DecodedWords := by
  unfold Obligations.DecodedWords
  decide

/-! ### Operand packets -/

/-- Byte `j` of a field that lies at offset `off` of the receive buffer. -/
theorem toBytes_rxSlice_getElem (s : State) {off n j : Nat} (hn : off + n ≤ 1028) (hj : j < n) :
    (toBytes n (rxSlice s off n))[j] = s.rxbuf[off + j] := by
  have hlist := toBytes_toList (l := rxSlice s off n) (n := n) (by simp [rxSlice]; omega)
  have hget := congrArg (fun l : List Byte => l[j]?) hlist
  simpa [rxSlice, hj, Nat.lt_of_lt_of_le (Nat.add_lt_add_left hj off) hn] using hget

/-- Settles O6: the lengths by evaluation, the fields by `toBytes_rxSlice_getElem`. -/
theorem operandFieldsAtTheirOffsets : Obligations.OperandFieldsAtTheirOffsets := by
  refine ⟨rfl, rfl, rfl, rfl, rfl, rfl, rfl, fun _ => rfl, fun s => ⟨fun j hj => ?_, rfl, fun j hj => ?_,
    fun j hj => ?_, rfl, fun j hj => ?_⟩⟩
  · simpa [operandVector] using toBytes_rxSlice_getElem s (off := 0) (by decide) hj
  · exact toBytes_rxSlice_getElem s (by decide) hj
  · exact toBytes_rxSlice_getElem s (by decide) hj
  · exact toBytes_rxSlice_getElem s (by decide) hj

/-- Settles O8: both orders join two bytes, `joinBytes_toNat`. -/
theorem blockAddressAssembly : Obligations.BlockAddressAssembly :=
  fun p0 p1 => ⟨joinBytes_toNat p0 p1, joinBytes_toNat p1 p0⟩

/-- A part of the receive buffer, cut out of a longer part from its beginning. -/
theorem rxSlice_of_rxSlice {s : State} {m off n : Nat} {l : List Byte} (h : rxSlice s 0 m = l) (hm : off + n ≤ m) :
    rxSlice s off n = (l.drop off).take n := by
  subst h
  simp only [rxSlice, List.drop_zero, List.drop_take, List.take_take]
  rw [min_eq_left (by omega)]

/-- The first bytes of the receive buffer, one by one. -/
theorem rxbuf_getElem_of_rxSlice {s : State} {m i : Nat} {l : List Byte} (h : rxSlice s 0 m = l) (hi : i < m)
    (hm : m ≤ 1028) : some s.rxbuf[i] = l[i]? := by
  subst h
  simp [rxSlice, hi, Nat.lt_of_lt_of_le hi hm]

theorem addrBytes_length (order : ByteOrder) (addr : Word) : (addrBytes order addr).length = 2 := by
  cases order <;> rfl

theorem operandVector_of_encodePrime {s : State} {v : Key} (h : rxSlice s 0 256 = encodePrime v) :
    operandVector s = v := by
  rw [operandVector, h, encodePrime, toBytes_of_toList]

theorem operands_of_encodeWrite {s : State} {a : Byte} {k r : Key} (h : rxSlice s 0 513 = encodeWrite a k r) :
    operandSlot s = a ∧ operandKey s = k ∧ operandResponse s = r := by
  refine ⟨by simpa [operandSlot, encodeWrite] using rxbuf_getElem_of_rxSlice h (i := 0) (by decide) (by decide), ?_, ?_⟩
  · rw [operandKey, rxSlice_of_rxSlice h (by decide)]
    simp [encodeWrite]
  · rw [operandResponse, rxSlice_of_rxSlice h (by decide)]
    simp [encodeWrite, List.take_of_length_le]

/-- A block address at the beginning of the receive buffer, in either order (R55). -/
theorem operandAddr_of_rxSlice {s : State} {addr : Word} {m : Nat} {l : List Byte} (hm : 2 ≤ m) (hm' : m ≤ 1028)
    (h : rxSlice s 0 m = addrBytes s.cfg.blockAddrOrder addr ++ l) : operandAddr s = addr := by
  have h0 := rxbuf_getElem_of_rxSlice h (i := 0) (by omega) hm'
  have h1 := rxbuf_getElem_of_rxSlice h (i := 1) (by omega) hm'
  rw [operandAddr]
  cases ho : s.cfg.blockAddrOrder
  all_goals
    simp only [ho, addrBytes, List.cons_append, List.getElem?_cons_zero, List.getElem?_cons_succ,
      Option.some.injEq] at h0 h1
    rw [h0, h1]
    exact joinBytes_extract addr

theorem operandRecord_of_encodePut {s : State} {order : ByteOrder} {addr : Word} {d : Record}
    (h : rxSlice s 0 1026 = encodePut order addr d) : operandRecord s = d := by
  rw [operandRecord, rxSlice_of_rxSlice h (by decide), encodePut, List.drop_left' (addrBytes_length _ _),
    List.take_of_length_le (by simp), toBytes_of_toList]

/-- Settles O7: each operand by the lemma of its command. -/
theorem operandDecodeOfEncode : Obligations.OperandDecodeOfEncode := fun s =>
  ⟨fun _ => operandVector_of_encodePrime, fun _ _ _ => operands_of_encodeWrite,
   fun addr h => operandAddr_of_rxSlice (l := []) le_rfl (by decide) (by rw [h, encodeGet, List.append_nil]),
   fun addr d h => ⟨operandAddr_of_rxSlice (by decide) (by decide) h, operandRecord_of_encodePut h⟩⟩

end Sys2Proof.Machine
end

section
/-! The checksum (R90, R92): a bit step is linear, and one-to-one where `poly` is odd; so the difference of two
checksums is the remainder of the difference of the payloads, and a single wrong byte shows. -/

namespace Sys2Proof.Machine

/-! ### The bit steps are linear -/

theorem reverse_xor {w : Nat} (x y : BitVec w) : (x ^^^ y).reverse = x.reverse ^^^ y.reverse := by
  apply BitVec.eq_of_getLsbD_eq
  intro i _
  rw [BitVec.getLsbD_xor, BitVec.getLsbD_reverse, BitVec.getLsbD_reverse, BitVec.getLsbD_reverse,
    BitVec.getMsbD_xor]

theorem crcBit_eq (p : CrcParams) (c : Word) : crcBit p c = (c <<< 1) ^^^ (if c.msb then p.poly else 0) := by
  unfold crcBit
  split <;> simp

theorem crcBit_xor (p : CrcParams) (c d : Word) : crcBit p (c ^^^ d) = crcBit p c ^^^ crcBit p d := by
  have hpoly : (if c.msb ^^ d.msb then p.poly else 0) =
      (if c.msb then p.poly else 0) ^^^ (if d.msb then p.poly else 0) := by
    cases c.msb <;> cases d.msb <;> simp
  rw [crcBit_eq, crcBit_eq, crcBit_eq, BitVec.msb_xor, BitVec.shiftLeft_xor_distrib, hpoly]
  ac_rfl

theorem repeat_crcBit_xor (p : CrcParams) (n : Nat) (c d : Word) :
    Nat.repeat (crcBit p) n (c ^^^ d) = Nat.repeat (crcBit p) n c ^^^ Nat.repeat (crcBit p) n d := by
  induction n with
  | zero => rfl
  | succ n ih => rw [Nat.repeat, ih, crcBit_xor, Nat.repeat, Nat.repeat]

/-- A byte where R90 adds it to the register: reflected under `refin`, in the high byte. -/
def crcInput (p : CrcParams) (b : Byte) : Word := (if p.refin then b.reverse else b).setWidth 16 <<< 8

theorem crcByte_eq (p : CrcParams) (c : Word) (b : Byte) :
    crcByte p c b = Nat.repeat (crcBit p) 8 (c ^^^ crcInput p b) := rfl

theorem crcInput_xor (p : CrcParams) (b d : Byte) : crcInput p (b ^^^ d) = crcInput p b ^^^ crcInput p d := by
  unfold crcInput
  cases p.refin <;> simp [reverse_xor, BitVec.shiftLeft_xor_distrib]

theorem crcByte_xor (p : CrcParams) (c d : Word) (a b : Byte) :
    crcByte p (c ^^^ d) (a ^^^ b) = crcByte p c a ^^^ crcByte p d b := by
  rw [crcByte_eq, crcByte_eq, crcByte_eq, ← repeat_crcBit_xor, crcInput_xor]
  congr 1
  ac_rfl

theorem crcLoop_cons (p : CrcParams) (b : Byte) (l : List Byte) (c : Word) :
    crcLoop p (b :: l) c = crcLoop p l (crcByte p c b) := by
  simp [crcLoop_eq_foldl]

theorem crcLoop_append (p : CrcParams) (l l' : List Byte) (c : Word) :
    crcLoop p (l ++ l') c = crcLoop p l' (crcLoop p l c) := by
  simp [crcLoop_eq_foldl]

theorem crcLoop_xor (p : CrcParams) {a b : List Byte} (h : a.length = b.length) (c d : Word) :
    crcLoop p (List.zipWith (· ^^^ ·) a b) (c ^^^ d) = crcLoop p a c ^^^ crcLoop p b d := by
  induction a generalizing b c d with
  | nil => cases b <;> simp_all [crcLoop]
  | cons x a ih =>
    cases b with
    | nil => simp at h
    | cons y b =>
      rw [List.zipWith_cons_cons, crcLoop_cons, crcLoop_cons, crcLoop_cons, crcByte_xor]
      exact ih (by simpa using h) _ _

/-- What R90 does with the register after the last byte, `xorout` apart. -/
def crcOutput (p : CrcParams) (c : Word) : Word := if p.refout then c.reverse else c

theorem crcOutput_xor (p : CrcParams) (c d : Word) : crcOutput p (c ^^^ d) = crcOutput p c ^^^ crcOutput p d := by
  unfold crcOutput
  cases p.refout <;> simp [reverse_xor]

theorem crc16_eq (p : CrcParams) (l : List Byte) : crc16 p l = crcOutput p (crcLoop p l p.init) ^^^ p.xorout := rfl

/-- R92 (2), with the difference named: the register run over the bytewise difference from 0. -/
theorem crc16_xor (p : CrcParams) {a b : List Byte} (h : a.length = b.length) :
    crc16 p a ^^^ crc16 p b = crcOutput p (crcLoop p (List.zipWith (· ^^^ ·) a b) 0#16) := by
  rw [← BitVec.xor_self (x := p.init), crcLoop_xor p h, crcOutput_xor, crc16_eq, crc16_eq]
  generalize crcOutput p (crcLoop p a p.init) = x
  generalize crcOutput p (crcLoop p b p.init) = y
  calc x ^^^ p.xorout ^^^ (y ^^^ p.xorout)
      = x ^^^ y ^^^ (p.xorout ^^^ p.xorout) := by ac_rfl
    _ = x ^^^ y := by rw [BitVec.xor_self, BitVec.xor_zero]

/-- Settles O11: both sides are a function of the bytewise difference (`crc16_xor`). -/
theorem checksumAffine : Obligations.ChecksumAffine := by
  intro p a b c d hab hcd _ hdiff
  rw [crc16_xor p hab, crc16_xor p hcd, hdiff]

/-! ### One changed byte -/

/-- Under an odd `poly` a bit step loses nothing: bit 0 after it says whether `poly` was added. -/
theorem eq_zero_of_crcBit_eq_zero {p : CrcParams} (hp : p.poly.getLsbD 0 = true) {c : Word} (h : crcBit p c = 0) :
    c = 0 := by
  rw [crcBit_eq] at h
  have hmsb : c.msb = false := by
    by_contra hmsb
    rw [if_pos (by simpa using hmsb)] at h
    have h0 : (c <<< 1 ^^^ p.poly).getLsbD 0 = false := by rw [h]; rfl
    rw [BitVec.getLsbD_xor, hp, BitVec.getLsbD_shiftLeft] at h0
    simp at h0
  apply BitVec.eq_of_getLsbD_eq
  intro i hi
  rcases Nat.lt_or_eq_of_le (Nat.le_of_lt_succ hi) with hlt | rfl
  · have hbit := congrArg (BitVec.getLsbD · (i + 1)) h
    simpa [hmsb, show i + 1 < 16 by omega, BitVec.getLsbD_eq_getElem hi] using hbit
  · simpa [BitVec.msb_eq_getLsbD_last] using hmsb

theorem crcBit_injective {p : CrcParams} (hp : p.poly.getLsbD 0 = true) : Function.Injective (crcBit p) := by
  intro c d h
  exact BitVec.xor_eq_zero_iff.mp (eq_zero_of_crcBit_eq_zero hp (by rw [crcBit_xor, h]; exact BitVec.xor_self))

theorem repeat_injective {α : Type} {f : α → α} (hf : Function.Injective f) (n : Nat) :
    Function.Injective (Nat.repeat f n) := by
  induction n with
  | zero => exact fun _ _ h => h
  | succ n ih => exact fun _ _ h => ih (hf h)

theorem crcByte_injective_left {p : CrcParams} (hp : p.poly.getLsbD 0 = true) (b : Byte) :
    Function.Injective (crcByte p · b) := by
  intro c d h
  exact (BitVec.xor_left_inj _).mp (repeat_injective (crcBit_injective hp) 8 h)

theorem reverse_injective {w : Nat} : Function.Injective (BitVec.reverse (w := w)) := by
  intro x y h
  apply BitVec.eq_of_getLsbD_eq
  intro i _
  rw [← BitVec.getMsbD_reverse, h, BitVec.getMsbD_reverse]

theorem crcInput_injective (p : CrcParams) : Function.Injective (crcInput p) := by
  intro b d h
  have hbytes : (if p.refin then b.reverse else b) = if p.refin then d.reverse else d := by
    apply BitVec.eq_of_getLsbD_eq
    intro i hi
    have hbit := congrArg (BitVec.getLsbD · (i + 8)) h
    simpa [crcInput, hi, show i + 8 < 16 by omega, show i < 16 by omega] using hbit
  split at hbytes
  · exact reverse_injective hbytes
  · exact hbytes

theorem crcByte_injective_right {p : CrcParams} (hp : p.poly.getLsbD 0 = true) (c : Word) :
    Function.Injective (crcByte p c) := by
  intro b d h
  exact crcInput_injective p ((BitVec.xor_right_inj _).mp (repeat_injective (crcBit_injective hp) 8 h))

theorem crcLoop_injective {p : CrcParams} (hp : p.poly.getLsbD 0 = true) (l : List Byte) :
    Function.Injective (crcLoop p l) := by
  induction l with
  | nil => exact fun _ _ h => h
  | cons b l ih =>
    intro c d h
    rw [crcLoop_cons, crcLoop_cons] at h
    exact crcByte_injective_left hp b (ih h)

theorem crcOutput_injective (p : CrcParams) : Function.Injective (crcOutput p) := by
  intro c d h
  unfold crcOutput at h
  split at h
  · exact reverse_injective h
  · exact h

/-- Settles O10: before the changed byte the registers are equal, at it they part, and no later step makes them equal
again. -/
theorem checksumSeesOneChangedByte : Obligations.ChecksumSeesOneChangedByte := by
  intro p pre post b b' hp hne h
  rw [crc16_eq, crc16_eq, BitVec.xor_left_inj] at h
  have hloop := crcOutput_injective p h
  rw [crcLoop_append, crcLoop_append, crcLoop_cons, crcLoop_cons] at hloop
  exact hne (crcByte_injective_right hp _ (crcLoop_injective hp post hloop))

end Sys2Proof.Machine
end

section
/-! What a `Receive` makes of the answers on the link (R93 to R106): a whole frame, a wrong byte, each of the aborts at
its symbol, silence; and that nothing the block held before plays a part. -/

namespace Sys2Proof.Machine

/-! ### An idle link -/

/-- A `Receive` on an idle link (R94). -/
theorem receive_idle {lenP lenA : Nat} {s : State}
    (h : s.link = [] ∨ ∃ e rest, s.link = e :: rest ∧ e.ans = .noData) :
    ∃ dt, receive lenP lenA s = ({ s with rxcnt := 0, link := s.link.tail, now := s.now + dt }, .noFrame) := by
  rcases h with h | ⟨e, rest, h, he⟩
  · exact ⟨0, by simp [receive, h]⟩
  · exact ⟨e.dt, by simp [receive, h, he]⟩

/-- Settles O12, from `receive_idle`. -/
theorem receiveOnIdleLink : Obligations.ReceiveOnIdleLink := by
  intro lenP lenA s h
  obtain ⟨dt, hr⟩ := receive_idle (lenP := lenP) (lenA := lenA) h
  refine ⟨_, hr, rfl, rfl, rfl, ?_, Nat.le_add_right _ _⟩
  rcases h with h | ⟨e, rest, h, he⟩
  · simp [h]
  · simp [h, symbolsIn, he]

/-- A `Receive` that answers `NoFrame` has changed `RXCNT`, the link and the clock alone (R94). -/
theorem receive_noFrame {lenP lenA : Nat} {s t : State} (h : receive lenP lenA s = (t, .noFrame)) :
    ∃ link now, t = { s with rxcnt := 0, link := link, now := now } := by
  rcases receive_cases lenP lenA s with ⟨link, dt, -, hr⟩ | ⟨r, -, ⟨c, hr⟩ | ⟨hr, -, -⟩⟩
  · cases hr.symm.trans h
    exact ⟨_, _, rfl⟩
  · cases hr.symm.trans h
  · cases hr.symm.trans h

/-! ### A frame that arrives whole -/

/-- The two checksum bytes put together are the checksum (R53). -/
theorem crcBytes_eq_iff {c : Word} {x y : Byte} : crcBytes c = [x, y] ↔ joinBytes x y = c := by
  constructor
  · intro h
    obtain ⟨rfl, rfl⟩ : c.extractLsb' 8 8 = x ∧ c.extractLsb' 0 8 = y := by simpa [crcBytes] using h
    exact joinBytes_extract c
  · intro h
    obtain ⟨rfl, rfl⟩ := joinBytes_inj ((joinBytes_extract c).trans h.symm)
    rfl

/-- A `Receive` on a frame of one of the two lengths that arrives in time, right or wrong: it is accepted if its last
two bytes are the checksum of the others, and refused with `Crc` if not (R96); nothing behind it is consumed. -/
theorem receive_carried {lenP lenA : Nat} {s : State} {q tail : List Byte} {evs rest : List LinkEvent}
    (hq : q.length ≤ 1026) (hpos : 1 ≤ q.length) (hlen : q.length = lenP ∨ q.length = lenA) (htail : tail.length = 2)
    (hl : s.link = evs ++ rest) (hc : Carries (q ++ tail) evs) (h0 : StartsAtOnce evs) :
    ∃ t, t.link = rest ∧ rxSlice t 0 q.length = q ∧ receive lenP lenA s =
      if crcBytes (crc16 s.cfg.crc q) = tail then (decClear t, .ok q.length) else raiseAbort .crc t := by
  obtain ⟨x, y, rfl⟩ := List.length_eq_two.mp htail
  obtain ⟨t, hr, hcnt, hbuf, hlink, hk, -⟩ := receive_frame (lenP := lenP) (lenA := lenA) (by simp; omega) hl hc h0
  have hslice : rxSlice t 0 q.length = q := by
    rw [rxSlice_fill hbuf (by simpa using hq) (by simp), List.take_left']
    rfl
  have hcnt' : t.rxcnt = q.length + 2 := by simpa using hcnt
  refine ⟨t, hlink, hslice, ?_⟩
  rw [hr, acceptFrame, if_neg (by omega), hcnt', Nat.add_sub_cancel, hslice,
    rxChecksum_fill hbuf (by omega), hk.cfg]
  simp only [ne_eq, ite_not, crcBytes_eq_iff, eq_comm (a := crc16 s.cfg.crc q)]

/-- A `Receive` on the frame of a payload of one of the two lengths (R104). -/
theorem receive_delivered {lenP lenA : Nat} {s : State} {p : List Byte} {evs rest : List LinkEvent}
    (hp : p.length ≤ 1026) (hpos : 1 ≤ p.length) (hlen : p.length = lenP ∨ p.length = lenA)
    (hl : s.link = evs ++ rest) (hc : Delivers s.cfg p evs) (h0 : StartsAtOnce evs) :
    ∃ t, receive lenP lenA s = (t, .ok p.length) ∧ rxSlice t 0 p.length = p ∧ t.link = rest := by
  obtain ⟨t, hlink, hslice, hr⟩ := receive_carried hp hpos hlen (crcBytes_length _) hl hc h0
  exact ⟨decClear t, by rw [hr, if_pos rfl], hslice, hlink⟩

/-- Settles O14, by `receive_delivered`. -/
theorem loopbackDeliversThePayload : Obligations.LoopbackDeliversThePayload := by
  intro lenP lenA s p evs rest _ hP hA hpos hlen hl hc h0
  exact receive_delivered (by omega) hpos hlen hl hc h0

/-- One byte of a packet replaced: what is then in the place of the payload does not have as its checksum what is in
the place of the checksum (R105). -/
theorem corrupted_packet {c : CrcParams} (hc : c.poly.getLsbD 0 = true) {p pre post : List Byte} {b b' : Byte}
    (h : packet c p = pre ++ b :: post) (hne : b ≠ b') :
    ∃ q tail, pre ++ b' :: post = q ++ tail ∧ q.length = p.length ∧ tail.length = 2 ∧ crcBytes (crc16 c q) ≠ tail := by
  have checksum : ∀ m, pre = p ++ m → crcBytes (crc16 c p) = m ++ b :: post → ∃ q tail,
      pre ++ b' :: post = q ++ tail ∧ q.length = p.length ∧ tail.length = 2 ∧ crcBytes (crc16 c q) ≠ tail := by
    rintro m rfl hm
    refine ⟨p, m ++ b' :: post, List.append_assoc .., rfl, ?_, ?_⟩
    · simpa using (congrArg List.length hm).symm
    · rw [hm]
      simpa using hne
  rcases List.append_eq_append_iff.mp h with ⟨m, hpre, hm⟩ | ⟨m, hp, hm⟩
  · exact checksum m hpre hm
  · cases m with
    | nil => exact checksum [] (by simpa using hp.symm) hm.symm
    | cons x m =>
      obtain ⟨rfl, rfl⟩ : b = x ∧ post = m ++ crcBytes (crc16 c p) := by simpa using hm
      subst hp
      refine ⟨pre ++ b' :: m, crcBytes (crc16 c (pre ++ b :: m)), by simp, by simp, rfl, fun heq => ?_⟩
      exact checksumSeesOneChangedByte c pre m b b' hc hne
        ((joinBytes_extract _).symm.trans (crcBytes_eq_iff.mp heq))

/-- An abort as the state and the result it gives (R100). -/
theorem raiseAbort_eq (c : Cause) (s : State) : raiseAbort c s = (setLinkErr c (decClear s), .fail c) := rfl

/-- Settles O15: `receive_carried` on what `corrupted_packet` finds. -/
theorem corruptedByteIsRefused : Obligations.CorruptedByteIsRefused := by
  intro lenP lenA s p pre post b b' evs rest _ hP hA hpos hlen hpoly hpacket hne hl hc h0
  obtain ⟨q, tail, heq, hq, htail, hcrc⟩ := corrupted_packet hpoly hpacket hne
  rw [heq] at hc
  obtain ⟨t, hlink, -, hr⟩ := receive_carried (by omega) (by omega) (hq ▸ hlen) htail hl hc h0
  rw [if_neg hcrc, raiseAbort_eq] at hr
  exact ⟨_, hr, hlink⟩

/-! ### The aborts -/

/-- Settles O16: the loop stands before `e` with the bytes of `l` accepted (`receive_start`), and `e` ends it. -/
theorem abortsAtTheSymbolThatRaisesThem : Obligations.AbortsAtTheSymbolThatRaisesThem := by
  intro lenP lenA s l body rest e _ _ _ hl h0 hs ht hm
  obtain ⟨tl, now, -, hr⟩ := receive_start hl h0 hs ht hm
  have hr := hr _ rfl
  obtain ⟨dt, ans⟩ := e
  refine ⟨?_, ?_, ?_⟩
  · rintro ⟨b, rfl⟩ hfull
    simp only [scan, demand_eq, hfull, if_true] at hr
    exact ⟨_, hr, by simp⟩
  · rintro rfl hP hA
    simp only [scan, demand_eq, endReceive, acceptFrame, commitScan_rxcnt, List.length_reverse] at hr
    rw [if_pos ⟨hP, hA⟩] at hr
    exact ⟨_, hr, by simp⟩
  · rintro rfl
    simp only [scan, demand_eq] at hr
    exact ⟨_, hr, by simp⟩

/-- Settles O17: after the byte the loop waits (`scan_wait`), and ends at the `NoData` that finds the bound passed, or
at the end of the link. -/
theorem inactivityTimeout : Obligations.InactivityTimeout := by
  intro lenP lenA s l body w b d _ hs ht h0 hroom hw htw
  have key : ∀ tail, s.link = body ++ ⟨d, .byte b⟩ :: (w ++ tail) → ∃ tl, ∀ r,
      r = scan (maxTot lenP lenA) tail (l.length + 1) (b :: l.reverse) tl (tl + (w.map LinkEvent.dt).sum) →
      receive lenP lenA s = endReceive lenP lenA r.fin (commitScan r s) := by
    intro tail hl
    obtain ⟨tl, now, -, hr⟩ := receive_start hl h0 hs ht hroom.le
    refine ⟨now + d, fun r h => hr r ?_⟩
    have hwait := scan_wait (maxTot lenP lenA) w tail (l.length + 1) (b :: l.reverse) (now + d) 0 hw htw
    simp only [Nat.add_zero] at hwait
    rw [h, ← hwait]
    simp [scan, hroom.ne]
  constructor
  · intro dt rest hdt hl
    obtain ⟨tl, hr⟩ := key _ hl
    have hbound : tInact ≤ tl + (w.map LinkEvent.dt).sum + dt - tl := by omega
    have hr := hr _ rfl
    simp only [scan, demand_eq, hbound, if_true, endReceive, raiseAbort_eq] at hr
    exact ⟨_, hr, by simp, by simp [commitScan, Nat.add_assoc]⟩
  · intro hl
    obtain ⟨tl, hr⟩ := key [] (by simpa using hl)
    have hr := hr _ rfl
    simp only [scan, endReceive, raiseAbort_eq] at hr
    exact ⟨_, hr, by simp, by simp [commitScan]; omega⟩

/-- Settles O18: a `Receive` that fails is the abort of `raiseAbort` after the loop (`receive_cases`), and the loop
touches the link's own state alone. -/
theorem abortEffect : Obligations.AbortEffect := by
  intro lenP lenA s t c h
  rcases receive_cases lenP lenA s with ⟨link, dt, -, hr⟩ | ⟨r, -, ⟨c', hr⟩ | ⟨hr, -, -⟩⟩
  · cases hr.symm.trans h
  · obtain ⟨hk, hd, hstatus, hcalls⟩ := commitScan_linkOnly r s
    cases hr.symm.trans h
    exact ⟨rfl, by simp [hcalls], by simp, by simp [hstatus], hk.keystore, hk.blockstore, hk.perm, hk.sidx,
      hk.txcrc, hk.curop, hd⟩
  · cases hr.symm.trans h

/-! ### No residue -/

/-- What one run of the loop of R93 has in common with another that differs in the readings of the clock alone. -/
structure Scan.Agrees (r r' : Scan) : Prop where
  bytes : r.bytes = r'.bytes
  rest  : r.rest = r'.rest
  fin   : r.fin = r'.fin

/-- The loop of R93 depends on the clock only through the time since the last byte. -/
theorem scan_agrees (m : Nat) (link : List LinkEvent) (cnt : Nat) (acc : List Byte) {tl now tl' now' : Nat}
    (h : tl ≤ now) (h' : tl' ≤ now') (hgap : now - tl = now' - tl') :
    (scan m link cnt acc tl now).Agrees (scan m link cnt acc tl' now') := by
  induction link generalizing cnt acc tl now tl' now' with
  | nil => exact ⟨rfl, rfl, rfl⟩
  | cons e link ih =>
    simp only [scan, demand_eq]
    cases e.ans with
    | byte b =>
      by_cases hc : cnt = m
      · simp only [hc, if_true]
        exact ⟨rfl, rfl, rfl⟩
      · simp only [hc, if_false]
        exact ih _ _ le_rfl le_rfl (by omega)
    | eof => exact ⟨rfl, rfl, rfl⟩
    | err => exact ⟨rfl, rfl, rfl⟩
    | noData =>
      have hnow : now + e.dt - tl = now' + e.dt - tl' := by omega
      by_cases ht : tInact ≤ now' + e.dt - tl'
      · simp only [hnow, ht, if_true]
        exact ⟨rfl, rfl, rfl⟩
      · simp only [hnow, ht, if_false]
        exact ih _ _ (by omega) (by omega) hnow

/-- A frame attempt that starts with a symbol does not depend on the clock before it. -/
theorem scan_agrees_of_symbol (m : Nat) {e : LinkEvent} (link : List LinkEvent) (he : e.ans ≠ .noData)
    (tl now tl' now' : Nat) :
    (scan m (e :: link) 0 [] tl now).Agrees (scan m (e :: link) 0 [] tl' now') := by
  simp only [scan, demand_eq]
  cases hans : e.ans with
  | byte b =>
    by_cases hc : 0 = m
    · simp only [hc, if_true]
      exact ⟨rfl, rfl, rfl⟩
    · simp only [hc, if_false]
      exact scan_agrees _ _ _ _ le_rfl le_rfl (by omega)
  | eof => exact ⟨rfl, rfl, rfl⟩
  | err => exact ⟨rfl, rfl, rfl⟩
  | noData => exact absurd hans he

/-- The checks at `EOF` read of the block the bytes of the frame and the checksum parameters alone (R96). -/
theorem acceptFrame_congr {lenP lenA : Nat} {s s' t t' : State} {l : List Byte} (hl : l.length ≤ 1028)
    (hcrc : t.cfg.crc = t'.cfg.crc) (hcnt : t.rxcnt = l.length) (hcnt' : t'.rxcnt = l.length)
    (hbuf : t.rxbuf = fillRxbuf s.rxbuf l) (hbuf' : t'.rxbuf = fillRxbuf s'.rxbuf l) :
    (acceptFrame lenP lenA t).2 = (acceptFrame lenP lenA t').2 := by
  unfold acceptFrame
  rw [hcnt, hcnt', hcrc]
  by_cases hlen : l.length ≠ lenP + 2 ∧ (lenA = 0 ∨ l.length ≠ lenA + 2)
  · rw [if_pos hlen, if_pos hlen]
    rfl
  · obtain ⟨q, tail, rfl, htail⟩ : ∃ q tail, l = q ++ tail ∧ tail.length = 2 :=
      ⟨l.take (l.length - 2), l.drop (l.length - 2), by simp, by simp; omega⟩
    obtain ⟨x, y, rfl⟩ := List.length_eq_two.mp htail
    have hq : (q ++ [x, y]).length - 2 = q.length := by simp
    have hq' : q.length + 2 ≤ 1028 := by simpa using hl
    rw [if_neg hlen, if_neg hlen, hq, rxSlice_fill hbuf hl (by simp), rxSlice_fill hbuf' hl (by simp),
      rxChecksum_fill hbuf hq', rxChecksum_fill hbuf' hq']
    split <;> rfl

theorem endReceive_congr {lenP lenA : Nat} {s s' : State} {r r' : Scan} (hr : r.Agrees r')
    (hlen : r.bytes.length ≤ 1028) (hcrc : s.cfg.crc = s'.cfg.crc) :
    (endReceive lenP lenA r.fin (commitScan r s)).2 = (endReceive lenP lenA r'.fin (commitScan r' s')).2 := by
  rw [← hr.fin]
  cases r.fin with
  | eof =>
    refine acceptFrame_congr (s := s) (s' := s') hlen ?_ (by simp) (by simp [hr.bytes]) (by simp) (by simp [hr.bytes])
    rw [(commitScan_linkOnly r s).1.cfg, (commitScan_linkOnly r' s').1.cfg, hcrc]
  | err => rfl
  | overrun => rfl
  | timeout => rfl
  | silence => rfl

/-- How a frame attempt ends changes neither the link nor the receive buffer. -/
theorem endReceive_fields (lenP lenA : Nat) (fin : ScanEnd) (s : State) :
    (endReceive lenP lenA fin s).1.link = s.link ∧ (endReceive lenP lenA fin s).1.rxbuf = s.rxbuf := by
  rcases endReceive_cases lenP lenA fin s with ⟨c, h⟩ | ⟨-, h, -⟩ <;> rw [h] <;> exact ⟨rfl, rfl⟩

theorem receive_of_symbol {lenP lenA : Nat} {s : State} {e : LinkEvent} {link : List LinkEvent}
    (hl : s.link = e :: link) (he : e.ans ≠ .noData) {r : Scan}
    (hr : r = scan (maxTot lenP lenA) (e :: link) 0 [] s.tlast s.now) :
    receive lenP lenA s = endReceive lenP lenA r.fin (commitScan r s) := by
  subst hr
  simp [receive, hl, he]

/-- Settles O19: on an idle link at once; on a frame attempt by `scan_agrees_of_symbol` and `endReceive_congr`. -/
theorem noResidue : Obligations.NoResidue := by
  intro lenP lenA s s' hP hA hlink hcrc
  by_cases hidle : s.link = [] ∨ ∃ e rest, s.link = e :: rest ∧ e.ans = .noData
  · obtain ⟨dt, hr⟩ := receive_idle (lenP := lenP) (lenA := lenA) hidle
    obtain ⟨dt', hr'⟩ := receive_idle (s := s') (lenP := lenP) (lenA := lenA) (hlink ▸ hidle)
    rw [hr, hr']
    exact ⟨rfl, congrArg List.tail hlink, by simp⟩
  · obtain ⟨e, link, hl⟩ : ∃ e link, s.link = e :: link := List.exists_cons_of_ne_nil fun h => hidle (.inl h)
    have he : e.ans ≠ .noData := fun h => hidle (.inr ⟨e, link, hl, h⟩)
    have hagree := scan_agrees_of_symbol (maxTot lenP lenA) link he s.tlast s.now s'.tlast s'.now
    have hbytes := scan_bytes_le (maxTot lenP lenA) (e :: link) 0 [] s.tlast s.now rfl (Nat.zero_le _)
    have hmax := maxTot_le hP hA
    rw [receive_of_symbol hl he rfl, receive_of_symbol (hlink ▸ hl) he rfl]
    generalize scan _ _ _ _ s.tlast s.now = r at hagree hbytes ⊢
    generalize scan _ _ _ _ s'.tlast s'.now = r' at hagree ⊢
    obtain ⟨hlink₁, hbuf₁⟩ := endReceive_fields lenP lenA r.fin (commitScan r s)
    obtain ⟨hlink₂, hbuf₂⟩ := endReceive_fields lenP lenA r'.fin (commitScan r' s')
    refine ⟨endReceive_congr hagree (by omega) hcrc, by simp [hlink₁, hlink₂, hagree.rest], fun n hn => ?_⟩
    have hn' : n ≤ r.bytes.length := by
      rcases endReceive_cases lenP lenA r.fin (commitScan r s) with ⟨c, h⟩ | ⟨-, h, -⟩
      · cases (congrArg Prod.snd h).symm.trans hn
      · cases (congrArg Prod.snd h).symm.trans hn
        simp
    rw [commitScan_rxbuf] at hbuf₁ hbuf₂
    rw [rxSlice_fill hbuf₁ (by omega) hn', rxSlice_fill hbuf₂ (hagree.bytes ▸ by omega) (hagree.bytes ▸ hn'),
      hagree.bytes]

end Sys2Proof.Machine
end

section
/-! The operand wait (R146): polls that find nothing pass the time, and the operand that comes is received as any frame
is. -/

namespace Sys2Proof.Machine

/-! ### Polls that find nothing -/

theorem ans_of_symbolsIn_cons_eq_nil {e : LinkEvent} {evs : List LinkEvent} (h : symbolsIn (e :: evs) = []) :
    e.ans = .noData ∧ symbolsIn evs = [] := by
  simp only [symbolsIn, List.map_cons, List.filter_cons] at h ⊢
  split at h
  · cases h
  · next hn => exact ⟨by simpa using hn, h⟩

/-- Answers with no gap of 500 ms, cut behind polls that find nothing. -/
theorem timely_append {wait : List LinkEvent} (hw : symbolsIn wait = []) (evs : List LinkEvent) (gap : Nat) :
    timely gap (wait ++ evs) = (timely gap wait && timely (gap + (wait.map LinkEvent.dt).sum) evs) := by
  induction wait generalizing gap with
  | nil => simp [timely]
  | cons e wait ih =>
    obtain ⟨he, hw⟩ := ans_of_symbolsIn_cons_eq_nil hw
    simp [timely, he, ih hw, Bool.and_assoc, Nat.add_assoc]

/-- Before the first symbol of some answers there are polls that find nothing. -/
theorem exists_wait (evs : List LinkEvent) :
    ∃ wait rest, evs = wait ++ rest ∧ symbolsIn wait = [] ∧ symbolsIn rest = symbolsIn evs ∧
      (rest = [] ∨ StartsAtOnce rest) := by
  induction evs with
  | nil => exact ⟨[], [], rfl, rfl, rfl, .inl rfl⟩
  | cons e evs ih =>
    by_cases he : e.ans = .noData
    · obtain ⟨wait, rest, rfl, hw, hs, hr⟩ := ih
      exact ⟨e :: wait, rest, rfl, by simpa [symbolsIn, he] using hw, by simp [symbolsIn, he] at hs ⊢; exact hs, hr⟩
    · exact ⟨[], e :: evs, rfl, rfl, rfl, .inr ⟨e, evs, rfl, he⟩⟩

/-- The time before the first symbol does not count for what comes behind it (R104). -/
theorem timely_of_startsAtOnce {evs : List LinkEvent} (h : StartsAtOnce evs) (gap gap' : Nat) :
    timely gap evs = timely gap' evs := by
  obtain ⟨e, rest, rfl, he⟩ := h
  simp [timely, he]

/-- The wait goes on through polls that find nothing, none of them at the bound: they leave the link, the clock has gone
on (R146). -/
theorem awaitOperand_wait {len t0 gap : Nat} {wait rest : List LinkEvent} {s : State} (fuel : Nat)
    (hl : s.link = wait ++ rest) (hnow : s.now = t0 + gap) (hw : symbolsIn wait = []) (ht : timely gap wait = true) :
    ∃ n, awaitOperand len t0 (wait.length + fuel) s = awaitOperand len t0 fuel
      { s with rxcnt := n, link := rest, now := s.now + (wait.map LinkEvent.dt).sum } := by
  induction wait generalizing s gap with
  | nil =>
    rw [List.nil_append] at hl
    exact ⟨s.rxcnt, by simp [← hl]⟩
  | cons e wait ih =>
    obtain ⟨he, hw⟩ := ans_of_symbolsIn_cons_eq_nil hw
    simp only [timely, he, if_true, Bool.and_eq_true, decide_eq_true_eq] at ht
    obtain ⟨n, ih⟩ := ih (s := { s with rxcnt := 0, link := wait ++ rest, now := s.now + e.dt }) (gap := gap + e.dt)
      rfl (by simp only [hnow]; omega) hw ht.2
    have hr : receive len 0 s = ({ s with rxcnt := 0, link := wait ++ rest, now := s.now + e.dt }, .noFrame) := by
      simp [receive, hl, he]
    have hbound : ¬ tInact ≤ s.now + e.dt - t0 := by omega
    refine ⟨n, ?_⟩
    rw [List.length_cons, Nat.add_right_comm, awaitOperand, hr]
    simp only [hbound, if_false]
    rw [ih]
    simp [Nat.add_assoc]

theorem receiveOperand_wait {len : Nat} {wait rest : List LinkEvent} {s : State} (hl : s.link = wait ++ rest)
    (hw : symbolsIn wait = []) (ht : timely 0 wait = true) :
    ∃ n, receiveOperand len s = awaitOperand len s.now rest.length
      { s with
        dstate := .awaitingOperand, rxcnt := n, link := rest, now := s.now + (wait.map LinkEvent.dt).sum } := by
  obtain ⟨n, h⟩ := awaitOperand_wait (len := len) (t0 := s.now) (gap := 0) rest.length
    (s := { s with dstate := .awaitingOperand }) hl rfl hw ht
  have hfuel : s.link.length = wait.length + rest.length := by rw [hl, List.length_append]
  exact ⟨n, by rw [receiveOperand, hfuel]; exact h⟩

/-! ### The three ways the wait ends -/

/-- An operand that begins in time is received, and nothing behind it is consumed (R146). -/
theorem receiveOperand_delivered {s : State} {p : List Byte} {evs rest : List LinkEvent} (hpos : 1 ≤ p.length)
    (hp : p.length ≤ 1026) (hl : s.link = evs ++ rest) (hc : Delivers s.cfg p evs) :
    ∃ t, receiveOperand p.length s = (t, .ok p.length) ∧ rxSlice t 0 p.length = p ∧ t.link = rest := by
  obtain ⟨body, dt, rfl, hs, ht⟩ := hc
  obtain ⟨wait, body, rfl, hw, hs', hstart⟩ := exists_wait body
  rw [timely_append hw, Bool.and_eq_true] at ht
  have hstart : StartsAtOnce body := hstart.resolve_left (by
    rintro rfl
    simpa [symbolsIn] using congrArg List.length (hs'.trans hs))
  have hstart' : StartsAtOnce (body ++ [⟨dt, .eof⟩]) := by
    obtain ⟨e, r, rfl, he⟩ := hstart
    exact ⟨e, _, rfl, he⟩
  have hcarry : Delivers s.cfg p (body ++ [⟨dt, .eof⟩]) :=
    ⟨body, dt, rfl, hs'.trans hs, (timely_of_startsAtOnce hstart _ _).trans ht.2⟩
  obtain ⟨n, hwait⟩ := receiveOperand_wait (len := p.length) (rest := body ++ [⟨dt, .eof⟩] ++ rest)
    (hl.trans (by simp)) hw ht.1
  obtain ⟨t, hr, hslice, hlink⟩ := receive_delivered (lenP := p.length) (lenA := 0)
    (s := { s with
      dstate := .awaitingOperand, rxcnt := n, link := body ++ [⟨dt, .eof⟩] ++ rest
      now := s.now + (wait.map LinkEvent.dt).sum })
    hp hpos (.inl rfl) rfl hcarry hstart'
  have hfuel : (body ++ [(⟨dt, .eof⟩ : LinkEvent)] ++ rest).length = body.length + rest.length + 1 := by simp; omega
  exact ⟨t, by rw [hwait, hfuel, awaitOperand, hr], hslice, hlink⟩

/-- A wait that ends at a poll that finds the bound passed (R146). -/
theorem receiveOperand_bound {s : State} {len dt : Nat} {wait rest : List LinkEvent} (hw : symbolsIn wait = [])
    (ht : timely 0 wait = true) (hdt : tInact ≤ (wait.map LinkEvent.dt).sum + dt)
    (hl : s.link = wait ++ ⟨dt, .noData⟩ :: rest) :
    ∃ t, receiveOperand len s = operandTimeout t ∧ t.link = rest ∧ t.calls = s.calls := by
  obtain ⟨n, hwait⟩ := receiveOperand_wait (len := len) hl hw ht
  have hbound : tInact ≤ s.now + (wait.map LinkEvent.dt).sum + dt - s.now := by omega
  rw [List.length_cons, awaitOperand] at hwait
  simp only [receive, if_true, hbound] at hwait
  exact ⟨_, hwait, rfl, rfl⟩

/-- A wait on a link that stays silent (R146; in one step, log entry 3). -/
theorem receiveOperand_silent {s : State} {len : Nat} (hw : symbolsIn s.link = []) (ht : timely 0 s.link = true) :
    ∃ t, receiveOperand len s = operandTimeout t ∧ t.link = [] ∧ t.calls = s.calls ∧ s.now + tInact ≤ t.now := by
  obtain ⟨n, hwait⟩ := receiveOperand_wait (len := len) (s := s) (rest := []) (List.append_nil _).symm hw ht
  exact ⟨_, hwait, rfl, rfl, by simp only; omega⟩

/-- Settles O20, by the three lemmas above. -/
theorem operandWait : Obligations.OperandWait := by
  intro s len hpos hlen
  refine ⟨?_, ?_, ?_⟩
  · rintro p evs rest rfl hl hc
    exact receiveOperand_delivered hpos hlen hl hc
  · intro wait rest dt hw ht hdt hl
    obtain ⟨t, hr, hlink, hcalls⟩ := receiveOperand_bound (len := len) hw ht hdt hl
    exact ⟨_, hr, hlink, hcalls, statusLinkErr_withLinkErr _ _⟩
  · intro hw ht
    obtain ⟨t, hr, hlink, hcalls, hnow⟩ := receiveOperand_silent (len := len) hw ht
    exact ⟨_, hr, hlink, hcalls, statusLinkErr_withLinkErr _ _, by simp only [setLinkErr_now]; omega⟩

end Sys2Proof.Machine
end

section
/-! The Key Index: the laws of `Compare` (R111), that every legal order is some ranking's (R114), `Find` by content
(R115), and the binary search that meets it (R116). -/

namespace Sys2Proof.Machine

/-! ### Compare as an order -/

theorem compareKeys_eq_iff (perm : Bytes 256) (a b : Key) :
    compareKeys perm a b = .eq ↔ bytesAlong perm.toList a = bytesAlong perm.toList b :=
  (compareKeys_compares perm a b).eq_eq

theorem compareKeys_lt_iff (perm : Bytes 256) (a b : Key) :
    compareKeys perm a b = .lt ↔ bytesAlong perm.toList a < bytesAlong perm.toList b :=
  (compareKeys_compares perm a b).eq_lt

theorem compareKeys_ne_gt_iff (perm : Bytes 256) (a b : Key) :
    compareKeys perm a b ≠ .gt ↔ bytesAlong perm.toList a ≤ bytesAlong perm.toList b := by
  rw [ne_eq, (compareKeys_compares perm a b).eq_gt, not_lt]

theorem compareKeys_self (perm : Bytes 256) (a : Key) : compareKeys perm a a = .eq :=
  (compareKeys_eq_iff perm a a).mpr rfl

/-- Settles O22: the order is that of the bytes along the vector, which is a linear order of number lists. -/
theorem compareTotalPreorder : Obligations.CompareTotalPreorder := by
  intro perm a b c
  refine ⟨compareKeys_self perm a, ?_, ?_⟩
  · rw [compareKeys_lt_iff, (compareKeys_compares perm b a).eq_gt]
  · simp only [compareKeys_ne_gt_iff]
    exact le_trans

theorem mem_of_count_eq_one {l : List Byte} (h : ∀ v : Byte, l.count v = 1) (v : Byte) : v ∈ l :=
  List.count_pos_iff.mp (by rw [h v]; exact Nat.one_pos)

/-- Settles O23: a valid vector names every position of the key. -/
theorem compareEqOnlyForEqualKeys : Obligations.CompareEqOnlyForEqualKeys := by
  intro s a b hperm
  refine ⟨fun h => Vector.ext fun i hi => ?_, fun h => h ▸ compareKeys_self s.perm a⟩
  have hmap := (compareKeys_eq_iff s.perm a b).mp h
  have hbyte := List.map_inj_left.mp hmap (BitVec.ofNat 8 i) (mem_of_count_eq_one hperm _)
  simpa [keyByte, Nat.mod_eq_of_lt hi, BitVec.toNat_inj] using hbyte

/-! ### Every legal order is some ranking's -/

/-- The relation in which `RebuildIndex` lists two slots of a state. -/
def SlotBefore (s : State) (rank : Nat → Nat) (a b : Byte) : Prop :=
  entryBefore s.perm rank (a, keyAt s a) (b, keyAt s b) = true

theorem sortedSlots_pairwise_slotBefore (s : State) (rank : Nat → Nat) :
    (sortedSlots s rank).Pairwise (SlotBefore s rank) := by
  refine List.pairwise_map.mpr ((insertionSort_entries_pairwise s rank).imp_of_mem fun {x y} hx hy h => ?_)
  rw [List.mem_insertionSort] at hx hy
  rwa [SlotBefore, ← mem_entries hx, ← mem_entries hy]

theorem slotBefore_antisymm {s : State} {rank : Nat → Nat} {a b : Byte} (h : SlotBefore s rank a b)
    (h' : SlotBefore s rank b a) : a = b := by
  rw [SlotBefore, entryBefore_iff_sortKey_le] at h h'
  have heq := le_antisymm h h'
  simp only [sortKey, EmbeddingLike.apply_eq_iff_eq, Prod.mk.injEq] at heq
  exact BitVec.eq_of_toNat_eq heq.2.2

/-- The ranking that puts the slots of a list in the order of the list. -/
def rankIn (l : List Byte) (n : Nat) : Nat := l.idxOf (BitVec.ofNat 8 n)

theorem rankIn_toNat (l : List Byte) (a : Byte) : rankIn l a.toNat = l.idxOf a := by
  simp [rankIn]

/-- A sorted order of the slots lists them as `RebuildIndex` does under that order's own ranking. -/
theorem pairwise_slotBefore_of_sorted {s : State} {l : List Byte} (hnd : l.Nodup)
    (hsorted : l.Pairwise fun a b => compareKeys s.perm (keyAt s a) (keyAt s b) ≠ .gt) :
    l.Pairwise (SlotBefore s (rankIn l)) := by
  rw [List.pairwise_iff_getElem] at hsorted ⊢
  intro i j hi hj hij
  have hle := hsorted i j hi hj hij
  unfold SlotBefore entryBefore
  simp only [rankIn_toNat, hnd.idxOf_getElem]
  cases hc : compareKeys s.perm (keyAt s l[i]) (keyAt s l[j]) with
  | lt => rfl
  | eq => simp [hij, hij.ne]
  | gt => exact absurd hc hle

/-- Settles O25: the order's own ranking gives it back, since two listings of the same slots in one antisymmetric order
are equal. -/
theorem everyLegalIndexIsPossible : Obligations.EveryLegalIndexIsPossible := by
  intro s σ h
  obtain ⟨hcount, hsorted⟩ := h
  have hnd : σ.toList.Nodup := (count_eq_one_iff_nodup σ).mp hcount
  refine ⟨rankIn σ.toList, Vector.toList_inj.mp ?_⟩
  rw [sortedIndex_toList]
  exact ((sortedSlots_perm s _).trans (perm_allBytes_of_nodup hnd).symm).eq_of_pairwise
    (fun a b _ _ => slotBefore_antisymm) (sortedSlots_pairwise_slotBefore s _)
    (pairwise_slotBefore_of_sorted hnd hsorted)

/-! ### Find -/

theorem find_result (k : Key) (s : State) :
    (find k s).2 = pickSlot (matchSet s k) (Config.findPick s.draws) := by
  simp only [find]

/-- What `Find` answers (R115). -/
theorem find_cases (k : Key) (s : State) :
    (∃ a, (find k s).2 = .found a ∧ keyAt s a = k) ∨ ((find k s).2 = .notFound ∧ ∀ a, keyAt s a ≠ k) := by
  rw [find_result]
  rcases pickSlot_spec (matchSet s k) (Config.findPick s.draws) with ⟨hm, hp⟩ | ⟨a, ha, hp⟩
  · refine .inr ⟨hp, fun a ha => ?_⟩
    have := (mem_matchSet s k a).mpr ha
    simp [hm] at this
  · exact .inl ⟨a, hp, (mem_matchSet s k a).mp ha⟩

/-- Settles O26, by `find_cases`. -/
theorem findByContent : Obligations.FindByContent := fun s k => ⟨find_cases k s, rfl⟩

/-- The pick that names a slot is its place among the matching slots. -/
theorem pickSlot_idxOf {m : List Byte} {a : Byte} (h : a ∈ m) : pickSlot m (m.idxOf a) = .found a := by
  match m with
  | [b] => simp [pickSlot, List.mem_singleton.mp h]
  | b :: c :: rest =>
    have hlt : (b :: c :: rest).idxOf a < rest.length + 2 := List.idxOf_lt_length_of_mem h
    rw [pickSlot, Nat.mod_eq_of_lt hlt, List.getD_eq_getElem _ _ hlt, List.getElem_idxOf]

/-- Settles O27, by `pickSlot_idxOf`. -/
theorem everyMatchingSlotIsPossible : Obligations.EveryMatchingSlotIsPossible :=
  fun s k a h => ⟨_, pickSlot_idxOf ((mem_matchSet s k a).mpr h)⟩

/-! ### The binary search -/

/-- The key of the `n`-th slot of the index. -/
def indexedKey (s : State) (n : Nat) : Key := keyAt s (s.sidx.toList.getD n 0)

/-- The key of the `n`-th slot of the index is below the pattern. -/
def KeyBelow (s : State) (k : Key) (n : Nat) : Prop := compareKeys s.perm (indexedKey s n) k = .lt

theorem keyBelow_iff {s : State} {k : Key} {n : Nat} :
    KeyBelow s k n ↔ bytesAlong s.perm.toList (indexedKey s n) < bytesAlong s.perm.toList k := compareKeys_lt_iff ..

/-- The loop of R116 ends where the keys below the pattern end, if they do so within the interval it starts with and the
fuel is enough to empty it. -/
theorem searchLoop_spec {s : State} {k : Key} {fuel lo hi : Nat} (hfuel : hi - lo < 2 ^ fuel) (hle : lo ≤ hi)
    (hhi : hi ≤ 256) (hmono : ∀ i j, i ≤ j → j < 256 → KeyBelow s k j → KeyBelow s k i)
    (hbelow : ∀ i < lo, KeyBelow s k i) (habove : ∀ i < 256, hi ≤ i → ¬ KeyBelow s k i) :
    ∃ n ≤ 256, searchLoop s k fuel lo hi = n ∧ (∀ i < n, KeyBelow s k i) ∧ ∀ i < 256, n ≤ i → ¬ KeyBelow s k i := by
  induction fuel generalizing lo hi with
  | zero =>
    obtain rfl : lo = hi := by omega
    exact ⟨lo, hhi, rfl, hbelow, habove⟩
  | succ fuel ih =>
    rw [Nat.pow_succ] at hfuel
    unfold searchLoop
    by_cases hlt : lo < hi
    · simp only [hlt, if_true]
      split
      · next hmid =>
        exact ih (by omega) (by omega) hhi (fun i hi' => hmono i _ (by omega) (by omega) hmid) habove
      · next hmid =>
        exact ih (by omega) (by omega) (by omega) hbelow fun i h256 hi' hb => hmid (hmono _ i hi' h256 hb)
    · simp only [hlt, if_false]
      obtain rfl : lo = hi := by omega
      exact ⟨lo, hhi, rfl, hbelow, habove⟩

/-- In a sorted index the keys do not fall. -/
theorem indexedKey_mono {s : State} (h : IndexSorted s) {i j : Nat} (hij : i ≤ j) (hj : j < 256) :
    bytesAlong s.perm.toList (indexedKey s i) ≤ bytesAlong s.perm.toList (indexedKey s j) := by
  rcases hij.eq_or_lt with rfl | hij
  · exact le_rfl
  · have hp := List.pairwise_iff_getElem.mp h.2 i j (by simp; omega) (by simpa) hij
    simpa [indexedKey, List.getD_eq_getElem?_getD, hj, hij.trans hj, compareKeys_ne_gt_iff] using hp

/-- Every slot's key is in the index. -/
theorem exists_indexedKey {s : State} (h : IndexSorted s) (a : Byte) : ∃ i, i < 256 ∧ indexedKey s i = keyAt s a := by
  obtain ⟨i, hi, ha⟩ := List.mem_iff_getElem.mp (mem_of_count_eq_one h.1 a)
  rw [Vector.length_toList] at hi
  exact ⟨i, hi, by simp [indexedKey, List.getD_eq_getElem?_getD, hi, ← ha]⟩

/-- Settles O28: the search stops at the first key not below the pattern, and in a sorted index no other place can hold
the pattern where that one does not. -/
theorem binarySearchMeetsFind : Obligations.BinarySearchMeetsFind := by
  intro s k hperm hsorted
  have hmono : ∀ i j, i ≤ j → j < 256 → KeyBelow s k j → KeyBelow s k i := fun i j hij hj h =>
    keyBelow_iff.mpr ((indexedKey_mono hsorted hij hj).trans_lt (keyBelow_iff.mp h))
  obtain ⟨lo, hle, hlo, hbelow, habove⟩ := searchLoop_spec (fuel := 9) (lo := 0) (hi := 256) (by decide) (by decide)
    le_rfl hmono (by simp) (by omega)
  have hnone : (∀ i, lo ≤ i → i < 256 → indexedKey s i ≠ k) → ∀ a, keyAt s a ≠ k := by
    rintro h a rfl
    obtain ⟨i, hi, hk⟩ := exists_indexedKey hsorted a
    refine h i (Nat.le_of_not_lt fun hlt => ?_) hi hk
    have hself := keyBelow_iff.mp (hbelow i hlt)
    rw [hk] at hself
    exact hself.false
  rw [findBinary, hlo]
  by_cases hend : lo = 256
  · exact .inr ⟨if_pos hend, hnone (by omega)⟩
  · simp only [hend, if_false]
    by_cases hcand : compareKeys s.perm (indexedKey s lo) k = .eq
    · exact .inl ⟨_, if_pos hcand, (compareEqOnlyForEqualKeys s _ _ hperm).mp hcand⟩
    · refine .inr ⟨if_neg hcand, hnone ?_⟩
      rintro i hge hi rfl
      have hge' := habove lo (by omega) le_rfl
      rw [keyBelow_iff, not_lt] at hge'
      exact hcand ((compareKeys_eq_iff _ _ _).mpr (le_antisymm (indexedKey_mono hsorted hge hi) hge'))

end Sys2Proof.Machine
end

section
/-! The two stores as data (R51, R52, R130, R131): what a record reads as after a write, and that a repeated write
changes nothing. -/

namespace Sys2Proof.Machine

/-- Settles O30: `readRecord_cases` and `writeRecord_cases` by the range, then the laws of `BlkGet` after `BlkSet`. -/
theorem recordReadBack : Obligations.RecordReadBack := by
  intro s a d
  constructor
  · intro ha
    have hillegal : ¬ addrLegal a = true := by rw [addrLegal_iff]; omega
    exact ⟨if_neg hillegal, if_neg hillegal⟩
  · intro ha
    have hlegal := (addrLegal_iff a).mpr ha
    refine ⟨blkSet a d s, if_pos hlegal, ?_, fun b hb => ?_, rfl, rfl, rfl⟩
    · rw [readRecord, if_pos hlegal, blkGet_blkSet_same]
    · rw [readRecord, readRecord, blkGet_blkSet_ne hb]

/-- The entries below a write, after it. -/
theorem filter_lt_writeRange (m : Memory) (base : Nat) (l : List Byte) :
    (m.writeRange base l).filter (fun c => c.1 < base) = m.filter (fun c => c.1 < base) := by
  have hcells : (Memory.cellsAt base l).filter (fun c => c.1 < base) = [] :=
    List.filter_eq_nil_iff.mpr fun c hc => by simp [(cellsAt_bounds l base c hc).1]
  have habove : (m.filter fun c => base + l.length ≤ c.1).filter (fun c => c.1 < base) = [] :=
    List.filter_eq_nil_iff.mpr fun c hc => by
      have := List.of_mem_filter hc
      simp at this ⊢
      omega
  simp only [Memory.writeRange, List.filter_append, hcells, habove, List.append_nil, List.filter_filter, Bool.and_self]

/-- The entries above a write, after it. -/
theorem filter_ge_writeRange (m : Memory) (base : Nat) (l : List Byte) :
    (m.writeRange base l).filter (fun c => base + l.length ≤ c.1) = m.filter (fun c => base + l.length ≤ c.1) := by
  have hcells : (Memory.cellsAt base l).filter (fun c => base + l.length ≤ c.1) = [] :=
    List.filter_eq_nil_iff.mpr fun c hc => by simp [(cellsAt_bounds l base c hc).2]
  have hbelow : (m.filter fun c => c.1 < base).filter (fun c => base + l.length ≤ c.1) = [] :=
    List.filter_eq_nil_iff.mpr fun c hc => by
      have := List.of_mem_filter hc
      simp at this ⊢
      omega
  simp only [Memory.writeRange, List.filter_append, hcells, hbelow, List.nil_append, List.filter_filter, Bool.and_self]

/-- A write of the bytes that are already there changes no entry. -/
theorem writeRange_idem (m : Memory) (base : Nat) (l : List Byte) :
    (m.writeRange base l).writeRange base l = m.writeRange base l := by
  rw [Memory.writeRange, filter_lt_writeRange, filter_ge_writeRange, Memory.writeRange]

/-- Settles O31, by `writeRange_idem`. -/
theorem repeatedStoreIsHarmless : Obligations.RepeatedStoreIsHarmless :=
  fun _ _ _ _ _ _ => ⟨writeRange_idem _ _ _, writeRange_idem _ _ _⟩

end Sys2Proof.Machine
end

section
/-! What each command can do (R144 to R155), once per command: the state it ends in, by what `Find`, the operand wait,
`SetPermutation` or the range test answers. -/

namespace Sys2Proof.Machine

/-! ### Commands without an operand -/

/-- The reply of a `lookup` that found nothing: at most a NAK (R144). -/
theorem answerLookup_notFound (s : State) :
    answerLookup .notFound s = { s with
      txcrc := if s.cfg.notFoundReply = .nak then crc16 s.cfg.crc [s.cfg.nak] else s.txcrc
      calls := s.calls ++ if s.cfg.notFoundReply = .nak then frameCalls s.cfg.crc [s.cfg.nak] else []
      status := withOpErr s.status OpErr.opNotFound.code } := by
  unfold answerLookup
  dsimp only
  split <;> simp [setOpErr, sendByte, send]

theorem exec_lookup_cases (k : Key) (s : State) :
    (∃ a, keyAt s a = k ∧ exec (.lookup k) s =
      .next (setOpErr .opOk (send (responseAt s a).toList { s with draws := s.draws + 1 }))) ∨
    ((∀ a, keyAt s a ≠ k) ∧ exec (.lookup k) s = .next (answerLookup .notFound { s with draws := s.draws + 1 })) := by
  rw [exec, execLookup, find_state]
  rcases find_cases k s with ⟨a, h, ha⟩ | ⟨h, ha⟩
  · exact .inl ⟨a, ha, by rw [h]; rfl⟩
  · exact .inr ⟨ha, by rw [h]⟩

theorem exec_erase (s : State) : exec .erase s = .next (setOpErr .opOk (sendByte s.cfg.ack (eraseAll s))) := rfl

theorem exec_noise (s : State) :
    exec .noise s = .next (setOpErr .opOk (send (randomBytes 256 s) { s with rng := s.rng + 256 })) := rfl

theorem exec_status (s : State) : exec .status s = .next (clearLinkErr (sendByte s.status s)) := rfl

theorem exec_reserved (op : Byte) (s : State) :
    exec (.reserved op) s = .next (setOpErr .opUnknown (sendByte s.cfg.nak s)) := rfl

/-! ### Commands with an operand -/

theorem primeBody_cases (s : State) :
    (validPerm (operandVector s) = true ∧
      primeBody s = setOpErr .opOk (sendByte s.cfg.ack (rebuildIndex { s with perm := operandVector s }))) ∨
    (validPerm (operandVector s) = false ∧ primeBody s = setOpErr .opBadPerm (sendByte s.cfg.nak s)) := by
  unfold primeBody
  rcases setPermutation_cases (operandVector s) s with ⟨hv, h⟩ | ⟨hv, h⟩ <;> rw [h]
  · exact .inl ⟨hv, rfl⟩
  · exact .inr ⟨hv, rfl⟩

theorem getBody_cases (s : State) :
    ((operandAddr s).toNat ≤ 31 ∧ getBody s = setOpErr .opOk (send (blkGet s (operandAddr s)).toList s)) ∨
    (31 < (operandAddr s).toNat ∧ getBody s = addressFailed s) := by
  unfold getBody
  rcases readRecord_cases (operandAddr s) s with ⟨ha, h⟩ | ⟨ha, h⟩ <;> rw [h]
  · exact .inl ⟨ha, rfl⟩
  · exact .inr ⟨ha, rfl⟩

theorem putBody_cases (s : State) :
    ((operandAddr s).toNat ≤ 31 ∧
      putBody s = setOpErr .opOk (sendByte s.cfg.ack (blkSet (operandAddr s) (operandRecord s) s))) ∨
    (31 < (operandAddr s).toNat ∧ putBody s = addressFailed s) := by
  unfold putBody
  rcases writeRecord_cases (operandAddr s) (operandRecord s) s with ⟨ha, h⟩ | ⟨ha, h⟩ <;> rw [h]
  · exact .inl ⟨ha, rfl⟩
  · exact .inr ⟨ha, rfl⟩

/-- The rest of a command once its operand is in `RXBUF`. -/
def operandBody : Instr → State → State
  | .prime => primeBody
  | .write => writeBody
  | .get => getBody
  | .put => putBody
  | _ => id

theorem exec_of_operandLength {i : Instr} {len : Nat} (h : operandLength i = some len) (s : State) :
    exec i s = .next (withOperand len (operandBody i) s) := by
  cases i <;> cases h <;> rfl

/-- A command whose operand was received. -/
theorem exec_of_received {i : Instr} {len : Nat} (h : operandLength i = some len) {s t : State} {n : Nat}
    (hr : receiveOperand len s = (t, .ok n)) : exec i s = .next (operandBody i t) := by
  rw [exec_of_operandLength h, withOperand, hr]

/-- A command whose operand failed (R155). -/
theorem exec_of_failed {i : Instr} {len : Nat} (h : operandLength i = some len) {s t : State} {c : Cause}
    (hr : receiveOperand len s = (t, .fail c)) : exec i s = .next (operandFailed t) := by
  rw [exec_of_operandLength h, withOperand, hr]

theorem exec_operand_cases {i : Instr} {len : Nat} (h : operandLength i = some len) (s : State) :
    (∃ t n, receiveOperand len s = (t, .ok n) ∧ exec i s = .next (operandBody i t)) ∨
    (∃ t c, receiveOperand len s = (t, .fail c) ∧ exec i s = .next (operandFailed t)) := by
  rw [exec_of_operandLength h]
  rcases withOperand_cases len (operandBody i) s with ⟨t, n, hr, hw⟩ | ⟨t, c, hr, hw⟩
  · exact .inl ⟨t, n, hr, by rw [hw]⟩
  · exact .inr ⟨t, c, hr, by rw [hw]⟩

/-- An operand that arrives: the state the rest of the command starts from. -/
structure Operand (s t : State) (p : List Byte) (rest : List LinkEvent) : Prop extends LinkOnly s t where
  rxbuf  : rxSlice t 0 p.length = p
  link   : t.link = rest
  calls  : t.calls = s.calls ++ [.decClear]
  status : t.status = s.status

theorem Operand.rxSlice_eq {s t : State} {p : List Byte} {rest : List LinkEvent} {n : Nat} (h : Operand s t p rest)
    (hn : p.length = n) : rxSlice t 0 n = p :=
  hn ▸ h.rxbuf

/-- A command whose operand arrives whole and in time runs its body on it (R146). -/
theorem exec_of_delivered {i : Instr} {p : List Byte} (h : operandLength i = some p.length) {s : State}
    {evs rest : List LinkEvent} (hl : s.link = evs ++ rest) (hc : Delivers s.cfg p evs) :
    ∃ t, exec i s = .next (operandBody i t) ∧ Operand s t p rest := by
  have hlen : 1 ≤ p.length ∧ p.length ≤ 1026 := by
    cases i <;> simp only [operandLength, Option.some.injEq, reduceCtorEq] at h <;> omega
  obtain ⟨t, hr, hslice, hlink⟩ := receiveOperand_delivered hlen.1 hlen.2 hl hc
  obtain ⟨hk, -⟩ := receiveOperand_spec p.length s
  obtain ⟨hstatus, hcalls⟩ := (receiveOperand_received p.length s).ok _ (by rw [hr])
  rw [hr] at hk hstatus hcalls
  exact ⟨t, exec_of_received h hr, hk, hslice, hlink, hcalls, hstatus⟩

theorem encodePrime_length (v : Key) : (encodePrime v).length = 256 := by simp [encodePrime]

theorem encodeWrite_length (a : Byte) (k r : Key) : (encodeWrite a k r).length = 513 := by simp [encodeWrite]

theorem encodeGet_length (order : ByteOrder) (addr : Word) : (encodeGet order addr).length = 2 :=
  addrBytes_length order addr

theorem encodePut_length (order : ByteOrder) (addr : Word) (d : Record) : (encodePut order addr d).length = 1026 := by
  simp [encodePut, addrBytes_length]

end Sys2Proof.Machine
end

section
/-! What each command does (R144 to R155): the reply it sends, what it stores and the result it leaves in `OP_ERR`. -/

namespace Sys2Proof.Machine

/-! ### Commands without an operand -/

/-- Settles O32: of the two ends of a `lookup` (`exec_lookup_cases`) the one that found a slot. -/
theorem lookupSendsTheResponse : Obligations.LookupSendsTheResponse := by
  rintro s k ⟨b, hb⟩
  rcases exec_lookup_cases k s with ⟨a, ha, h⟩ | ⟨hnone, -⟩
  · exact ⟨_, a, h, ha, by simp, by simp, rfl, rfl⟩
  · exact absurd hb (hnone b)

/-- Settles O33: of the two ends of a `lookup` the one that found none. -/
theorem lookupNotFound : Obligations.LookupNotFound := by
  intro s k hnone
  rcases exec_lookup_cases k s with ⟨a, ha, -⟩ | ⟨-, h⟩
  · exact absurd ha (hnone a)
  · rw [answerLookup_notFound] at h
    exact ⟨_, h, rfl, by simp, rfl, rfl⟩

theorem randomBytes_getElem? (n : Nat) (s : State) {i : Nat} (h : i < n) :
    (randomBytes n s)[i]? = some (Config.randomByte (s.rng + i)) := by
  simp [randomBytes, h]

/-- Settles O37, by `exec_noise`. -/
theorem noiseSendsDrawnBytes : Obligations.NoiseSendsDrawnBytes := fun s =>
  ⟨_, randomBytes 256 s, exec_noise s, by simp [randomBytes], fun _ => randomBytes_getElem? 256 s, rfl, rfl,
    statusOpErr_withOpErr _ _⟩

theorem withLinkErr_zero_idem (st : Byte) : withLinkErr (withLinkErr st 0) 0 = withLinkErr st 0 := by
  simp [withLinkErr, BitVec.and_assoc]

/-- Settles O40, by `exec_status` twice. -/
theorem statusReportsAndClears : Obligations.StatusReportsAndClears := fun s =>
  ⟨_, _, exec_status s, rfl, exec_status _, rfl, statusLinkErr_cleared _, statusOpErr_cleared _,
    withLinkErr_zero_idem _⟩

/-- Settles O41, by `exec_reserved`. -/
theorem reservedOpcodeAnswersNak : Obligations.ReservedOpcodeAnswersNak := fun s op =>
  ⟨_, exec_reserved op s, rfl, statusOpErr_withOpErr _ _, rfl, rfl, rfl, rfl, rfl⟩

/-! ### Erase -/

/-- Every slot that the loop of `EraseAll` has come to is zero, and stays so. -/
theorem eraseLoop_zero (l : List Byte) (s : State) (a : Byte)
    (h : a ∈ l ∨ keyAt s a = zeroKey ∧ responseAt s a = zeroKey) :
    keyAt (l.foldl (fun s a => keySet a zeroKey zeroKey s) s) a = zeroKey ∧
      responseAt (l.foldl (fun s a => keySet a zeroKey zeroKey s) s) a = zeroKey := by
  induction l generalizing s with
  | nil => simpa using h
  | cons b l ih =>
    refine ih _ ?_
    by_cases hab : a = b
    · subst hab
      exact .inr ⟨keyAt_keySet_same .., responseAt_keySet_same ..⟩
    · rw [keyAt_keySet_ne hab, responseAt_keySet_ne hab]
      exact h.imp_left fun hmem => (List.mem_cons.mp hmem).resolve_left hab

theorem keyAt_rebuildIndex (s : State) : keyAt (rebuildIndex s) = keyAt s := keyAt_congr rfl

theorem responseAt_rebuildIndex (s : State) : responseAt (rebuildIndex s) = responseAt s := responseAt_congr rfl

/-- `EraseAll` in one state: the loop's store and calls, then the rebuild. -/
theorem eraseAll_eq (s : State) : ∃ m, eraseAll s = rebuildIndex { s with
    keystore := m, calls := s.calls ++ allBytes.map fun a => .keySet a zeroKey zeroKey } := by
  obtain ⟨m, calls, h⟩ := eraseLoop_frame allBytes s
  have hcalls := eraseLoop_calls allBytes s
  rw [h] at hcalls
  exact ⟨m, by rw [eraseAll, h, ← hcalls]⟩

theorem eraseAll_zero (s : State) (a : Byte) :
    keyAt (eraseAll s) a = zeroKey ∧ responseAt (eraseAll s) a = zeroKey := by
  rw [eraseAll, keyAt_rebuildIndex, responseAt_rebuildIndex]
  exact eraseLoop_zero allBytes s a (.inl (mem_allBytes a))

/-- Settles O36: `EraseAll` zeroes every slot (`eraseAll_zero`) and rebuilds the index. -/
theorem eraseZeroesTheStore : Obligations.EraseZeroesTheStore := by
  intro s
  have hexec := exec_erase s
  have hzero := eraseAll_zero s
  obtain ⟨m, h⟩ := eraseAll_eq s
  rw [h] at hexec hzero
  exact ⟨_, hexec, hzero, rebuildIndex_indexSorted _, rfl, rfl, statusOpErr_withOpErr _ _, rfl⟩

/-! ### Commands with an operand -/

/-- Settles O34: the operand is the vector, and `primeBody_cases` by whether it is valid. -/
theorem primeImportsThePermutation : Obligations.PrimeImportsThePermutation := by
  intro s v evs rest hl hc
  obtain ⟨t, h, ht⟩ := exec_of_delivered (i := .prime) (congrArg some (encodePrime_length v).symm) hl hc
  have hv : operandVector t = v := operandVector_of_encodePrime (ht.rxSlice_eq (encodePrime_length v))
  rcases primeBody_cases t with ⟨hvalid, hb⟩ | ⟨hvalid, hb⟩ <;> rw [hv] at hvalid <;>
    refine ⟨_, h, ?_⟩ <;> rw [operandBody, hb]
  · refine ⟨ht.link, ht.keystore, ht.blockstore, fun _ => ⟨hv, ?_, statusOpErr_withOpErr _ _, ?_⟩, by simp [hvalid]⟩
    · exact rebuildIndex_indexSorted { t with perm := operandVector t }
    · simp [ht.calls, ht.cfg]
  · refine ⟨ht.link, ht.keystore, ht.blockstore, by simp [hvalid], fun _ => ⟨ht.perm, ht.sidx,
      statusOpErr_withOpErr _ _, ?_⟩⟩
    simp [ht.calls, ht.cfg]

/-- Settles O35: the operand is the slot with its Key and Response, and the rest are the laws of `KeySet`. -/
theorem writeEnrollsThePair : Obligations.WriteEnrollsThePair := by
  intro s a k r evs rest hl hc
  obtain ⟨t, h, ht⟩ := exec_of_delivered (i := .write) (congrArg some (encodeWrite_length a k r).symm) hl hc
  obtain ⟨ha, hk, hr⟩ := operands_of_encodeWrite (ht.rxSlice_eq (encodeWrite_length a k r))
  have hkey := congrFun (keyAt_congr ht.keystore)
  have hresponse := congrFun (responseAt_congr ht.keystore)
  refine ⟨_, h, ?_⟩
  rw [operandBody, writeBody, writeKeyPair, ha, hk, hr]
  refine ⟨ht.link, keyAt_keySet_same a k r t, responseAt_keySet_same a k r t, fun b hb => ⟨?_, ?_⟩,
    rebuildIndex_indexSorted (keySet a k r t), ht.perm, ht.blockstore, statusOpErr_withOpErr _ _, ?_⟩
  · exact (keyAt_keySet_ne hb k r t).trans (hkey b)
  · exact (responseAt_keySet_ne hb k r t).trans (hresponse b)
  · simp [ht.calls, ht.cfg]

/-- Settles O38: the operand is the address, and `getBody_cases` by its range. -/
theorem getSendsTheRecord : Obligations.GetSendsTheRecord := by
  intro s addr evs rest hl hc
  obtain ⟨t, h, ht⟩ := exec_of_delivered (i := .get) (congrArg some (encodeGet_length _ addr).symm) hl hc
  have ha : operandAddr t = addr := operandAddr_of_rxSlice (l := []) le_rfl (by decide)
    (by rw [ht.rxSlice_eq (encodeGet_length _ addr), ht.cfg, encodeGet, List.append_nil])
  rcases getBody_cases t with ⟨hrange, hb⟩ | ⟨hrange, hb⟩ <;> rw [ha] at hrange <;> rw [operandBody, hb] at h
  · refine ⟨_, h, ht.link, ht.blockstore, fun _ => ⟨statusOpErr_withOpErr _ _, ?_⟩, by omega⟩
    simp [ht.calls, ht.cfg, ha, blkGet_congr ht.blockstore]
  · refine ⟨_, h, ht.link, ht.blockstore, by omega, fun _ => ⟨statusOpErr_withOpErr _ _, ?_⟩⟩
    simp [addressFailed, ht.calls, ht.cfg]

/-- Settles O39: the operand is the address with the record, and `putBody_cases` by the range. -/
theorem putStoresTheRecord : Obligations.PutStoresTheRecord := by
  intro s addr d evs rest hl hc
  obtain ⟨t, h, ht⟩ := exec_of_delivered (i := .put) (congrArg some (encodePut_length _ addr d).symm) hl hc
  have hbuf : rxSlice t 0 1026 = encodePut t.cfg.blockAddrOrder addr d := by
    rw [ht.rxSlice_eq (encodePut_length _ addr d), ht.cfg]
  have ha : operandAddr t = addr := operandAddr_of_rxSlice (by decide) (by decide) hbuf
  have hd : operandRecord t = d := operandRecord_of_encodePut hbuf
  have hget := congrFun (blkGet_congr ht.blockstore)
  rcases putBody_cases t with ⟨hrange, hb⟩ | ⟨hrange, hb⟩ <;> rw [ha] at hrange <;> rw [operandBody, hb] at h
  · rw [ha, hd] at h
    refine ⟨_, h, ht.link, ht.keystore, fun _ => ⟨blkGet_blkSet_same addr d t, fun b hb => ?_,
      statusOpErr_withOpErr _ _, ?_⟩, by omega⟩
    · exact (blkGet_blkSet_ne hb d t).trans (hget b)
    · simp [ht.calls, ht.cfg]
  · refine ⟨_, h, ht.link, ht.keystore, by omega, fun _ => ⟨ht.blockstore, statusOpErr_withOpErr _ _, ?_⟩⟩
    simp [addressFailed, ht.calls, ht.cfg]

/-- Settles O42: the four commands end in `operandFailed` alike, on the state the wait left. -/
theorem operandFailureHasNoOtherEffect : Obligations.OperandFailureHasNoOtherEffect := by
  intro s t i len c hi hr
  obtain ⟨hk, -⟩ := receiveOperand_spec len s
  have hstatus := (receiveOperand_received len s).fail c (by rw [hr])
  simp only [hr] at hk hstatus
  have h := exec_of_failed hi hr
  rw [operandFailed_eq, hk.cfg] at h
  exact ⟨_, h, hk.keystore, hk.blockstore, hk.perm, hk.sidx, by simp,
    (statusLinkErr_withOpErr _ _).trans (hstatus ▸ statusLinkErr_withLinkErr _ _), rfl⟩

end Sys2Proof.Machine
end

section
/-! How every command ends (R156, R158): a state the work of the command leaves, then at most one reply and a result
code. -/

namespace Sys2Proof.Machine

/-- The calls of a reply: none, or the frame of a payload of one of the three lengths of R102. -/
def IsReply (p : CrcParams) (reply : List Call) : Prop :=
  reply = [] ∨ ∃ payload : List Byte, reply = frameCalls p payload ∧
    (payload.length = 1 ∨ payload.length = 256 ∨ payload.length = 1024)

/-- What a reply changes, from `w` to `t`: `TXCRC`, the output calls, and `STATUS`, which is `status` after it. -/
def Replied (w t : State) (status : Byte) : Prop :=
  ∃ txcrc reply, IsReply w.cfg.crc reply ∧ t = { w with txcrc := txcrc, status := status, calls := w.calls ++ reply }

/-- The end of every command but `status`: a reply, and a code in `OP_ERR` (R156). -/
def Answered (w t : State) : Prop := ∃ e : OpErr, Replied w t (withOpErr w.status e.code)

/-! ### The ends of the commands -/

theorem answered_send (e : OpErr) {payload : List Byte} (w : State)
    (h : payload.length = 1 ∨ payload.length = 256 ∨ payload.length = 1024) :
    Answered w (setOpErr e (send payload w)) :=
  ⟨e, _, _, .inr ⟨payload, rfl, h⟩, rfl⟩

theorem answered_sendByte (e : OpErr) (b : Byte) (w : State) : Answered w (setOpErr e (sendByte b w)) :=
  answered_send e w (.inl rfl)

theorem isReply_nak_or_silence (c : Config) (r : FailReply) :
    IsReply c.crc (if r = .nak then frameCalls c.crc [c.nak] else []) := by
  split
  · exact .inr ⟨[c.nak], rfl, .inl rfl⟩
  · exact .inl rfl

theorem answered_notFound (w : State) : Answered w (answerLookup .notFound w) :=
  ⟨.opNotFound, _, _, isReply_nak_or_silence w.cfg w.cfg.notFoundReply, answerLookup_notFound w⟩

theorem answered_operandFailed (w : State) : Answered w (operandFailed w) :=
  ⟨.opOperand, _, _, isReply_nak_or_silence w.cfg w.cfg.operandFailReply, operandFailed_eq w⟩

/-! ### Each command -/

theorem exec_lookup_answered {k : Key} {s t : State} (h : exec (.lookup k) s = .next t) :
    Answered { s with draws := s.draws + 1 } t := by
  rcases exec_lookup_cases k s with ⟨a, -, he⟩ | ⟨-, he⟩
  · cases he.symm.trans h
    exact answered_send _ _ (.inr (.inl (by simp)))
  · cases he.symm.trans h
    exact answered_notFound _

theorem exec_noise_answered {s t : State} (h : exec .noise s = .next t) :
    Answered { s with rng := s.rng + 256 } t := by
  cases (exec_noise s).symm.trans h
  exact answered_send _ _ (.inr (.inl (by simp [randomBytes])))

theorem exec_reserved_answered {op : Byte} {s t : State} (h : exec (.reserved op) s = .next t) : Answered s t := by
  cases (exec_reserved op s).symm.trans h
  exact answered_sendByte _ _ _

theorem exec_status_replied {s t : State} (h : exec .status s = .next t) : Replied s t (withLinkErr s.status 0) := by
  cases (exec_status s).symm.trans h
  exact ⟨_, _, .inr ⟨[s.status], rfl, .inl rfl⟩, rfl⟩

theorem exec_erase_answered {s t : State} (h : exec .erase s = .next t) : Answered (eraseAll s) t := by
  have ht := Host.Outcome.next.inj ((exec_erase s).symm.trans h)
  rw [← ht]
  exact answered_sendByte _ _ _

theorem exec_prime_answered {s t : State} (h : exec .prime s = .next t) :
    Answered (receiveOperand 256 s).1 t ∨
    ∃ v, validPerm v = true ∧ Answered (rebuildIndex { (receiveOperand 256 s).1 with perm := v }) t := by
  rcases exec_operand_cases (i := .prime) rfl s with ⟨u, n, hr, he⟩ | ⟨u, c, hr, he⟩ <;>
    cases he.symm.trans h <;> rw [hr]
  · rcases primeBody_cases u with ⟨hv, hb⟩ | ⟨-, hb⟩ <;> rw [operandBody, hb]
    · exact .inr ⟨_, hv, answered_sendByte _ _ _⟩
    · exact .inl (answered_sendByte _ _ _)
  · exact .inl (answered_operandFailed u)

theorem exec_write_answered {s t : State} (h : exec .write s = .next t) :
    Answered (receiveOperand 513 s).1 t ∨
    ∃ k r, Answered (rebuildIndex (keySet (operandSlot (receiveOperand 513 s).1) k r (receiveOperand 513 s).1)) t := by
  rcases exec_operand_cases (i := .write) rfl s with ⟨u, n, hr, he⟩ | ⟨u, c, hr, he⟩ <;>
    cases he.symm.trans h <;> rw [hr]
  · exact .inr ⟨operandKey u, operandResponse u, answered_sendByte _ _ _⟩
  · exact .inl (answered_operandFailed u)

theorem exec_get_answered {s t : State} (h : exec .get s = .next t) : Answered (receiveOperand 2 s).1 t := by
  rcases exec_operand_cases (i := .get) rfl s with ⟨u, n, hr, he⟩ | ⟨u, c, hr, he⟩ <;>
    cases he.symm.trans h <;> rw [hr]
  · rcases getBody_cases u with ⟨-, hb⟩ | ⟨-, hb⟩ <;> rw [operandBody, hb]
    · exact answered_send _ _ (.inr (.inr (by simp)))
    · exact answered_sendByte _ _ _
  · exact answered_operandFailed u

theorem exec_put_answered {s t : State} (h : exec .put s = .next t) :
    Answered (receiveOperand 1026 s).1 t ∨
    (operandAddr (receiveOperand 1026 s).1).toNat ≤ 31 ∧
      ∃ d, Answered (blkSet (operandAddr (receiveOperand 1026 s).1) d (receiveOperand 1026 s).1) t := by
  rcases exec_operand_cases (i := .put) rfl s with ⟨u, n, hr, he⟩ | ⟨u, c, hr, he⟩ <;>
    cases he.symm.trans h <;> rw [hr]
  · rcases putBody_cases u with ⟨ha, hb⟩ | ⟨-, hb⟩ <;> rw [operandBody, hb]
    · exact .inr ⟨ha, _, answered_sendByte _ _ _⟩
    · exact .inl (answered_sendByte _ _ _)
  · exact .inl (answered_operandFailed u)

end Sys2Proof.Machine
end

section
/-! What each command leaves unchanged, and what two commands do one after another. -/

namespace Sys2Proof.Machine

/-! ### Frames of the commands without an operand -/

/-- Settles O43: each of the four ends with a reply from a state that differs in a counter at most. -/
theorem frameOfCommandsThatStoreNothing : Obligations.FrameOfCommandsThatStoreNothing := by
  rintro i s t (⟨k, rfl⟩ | rfl | rfl | ⟨op, rfl⟩) h
  · obtain ⟨e, txcrc, reply, -, rfl⟩ := exec_lookup_answered h
    obtain ⟨h7, h3⟩ := withOpErr_reserved s.status e
    exact ⟨rfl, rfl, rfl, rfl, rfl, rfl, rfl, rfl, rfl, rfl, rfl, fun _ => rfl, fun h => absurd rfl (h k),
      fun _ => statusLinkErr_withOpErr _ _, nofun, h7, h3, fun _ => rfl, fun _ => rfl⟩
  · obtain ⟨e, txcrc, reply, -, rfl⟩ := exec_noise_answered h
    obtain ⟨h7, h3⟩ := withOpErr_reserved s.status e
    exact ⟨rfl, rfl, rfl, rfl, rfl, rfl, rfl, rfl, rfl, rfl, rfl, fun h => absurd rfl h, fun _ => rfl,
      fun _ => statusLinkErr_withOpErr _ _, nofun, h7, h3, fun _ => rfl, fun _ => rfl⟩
  · obtain ⟨txcrc, reply, -, rfl⟩ := exec_status_replied h
    obtain ⟨h7, h3⟩ := cleared_reserved s.status
    exact ⟨rfl, rfl, rfl, rfl, rfl, rfl, rfl, rfl, rfl, rfl, rfl, fun _ => rfl, fun _ => rfl,
      fun h => absurd rfl h, fun _ => statusOpErr_cleared _, h7, h3, fun _ => rfl, fun _ => rfl⟩
  · obtain ⟨e, txcrc, reply, -, rfl⟩ := exec_reserved_answered h
    obtain ⟨h7, h3⟩ := withOpErr_reserved s.status e
    exact ⟨rfl, rfl, rfl, rfl, rfl, rfl, rfl, rfl, rfl, rfl, rfl, fun _ => rfl, fun _ => rfl,
      fun _ => statusLinkErr_withOpErr _ _, nofun, h7, h3, fun _ => rfl, fun _ => rfl⟩

/-- `KeySet` writes the 512 bytes of its slot alone (R51). -/
theorem read_keySet_of_outside {a : Byte} (k r : Key) (s : State) {addr : Nat}
    (h : ¬ (slotBase a ≤ addr ∧ addr < slotBase a + 512)) :
    (keySet a k r s).keystore.read addr = s.keystore.read addr := by
  rw [keySet_keystore, read_writeRange, if_neg (by simpa using h)]

/-- `BlkSet` writes the 1024 bytes of its record alone (R52). -/
theorem read_blkSet_of_outside {a : Word} (d : Record) (s : State) {addr : Nat}
    (h : ¬ (recordBase a ≤ addr ∧ addr < recordBase a + 1024)) :
    (blkSet a d s).blockstore.read addr = s.blockstore.read addr := by
  rw [blkSet_blockstore, read_writeRange, if_neg (by simpa using h)]

theorem read_eraseLoop_of_outside {addr : Nat} (h : ∀ slot, ¬ (slotBase slot ≤ addr ∧ addr < slotBase slot + 512))
    (l : List Byte) (s : State) :
    (l.foldl (fun s a => keySet a zeroKey zeroKey s) s).keystore.read addr = s.keystore.read addr := by
  induction l generalizing s with
  | nil => rfl
  | cons a l ih => exact (ih _).trans (read_keySet_of_outside _ _ s (h a))

theorem read_eraseAll_of_outside {addr : Nat} (h : ∀ slot, ¬ (slotBase slot ≤ addr ∧ addr < slotBase slot + 512))
    (s : State) : (eraseAll s).keystore.read addr = s.keystore.read addr := by
  rw [eraseAll, rebuildIndex_keystore]
  exact read_eraseLoop_of_outside h allBytes s

/-- Settles O44: `eraseAll_eq` names what `EraseAll` writes, and `read_eraseAll_of_outside` bounds where. -/
theorem frameOfErase : Obligations.FrameOfErase := by
  intro s t h
  have hread := fun addr h => read_eraseAll_of_outside (addr := addr) h s
  have hans := exec_erase_answered h
  obtain ⟨m, hm⟩ := eraseAll_eq s
  rw [hm] at hans hread
  obtain ⟨e, txcrc, reply, -, rfl⟩ := hans
  obtain ⟨h7, h3⟩ := withOpErr_reserved s.status e
  exact ⟨rfl, rfl, rfl, rfl, rfl, rfl, rfl, rfl, rfl, rfl, rfl, statusLinkErr_withOpErr _ _, h7, h3, hread,
    fun _ => rfl⟩

/-! ### Frames of the commands with an operand -/

/-- What a command with an operand leaves alone, whatever it stores (R146, R156): `LINK_ERR` where the operand was
received. -/
structure OperandFrame (len : Nat) (s t : State) : Prop where
  cfg     : t.cfg = s.cfg
  curop   : t.curop = s.curop
  rng     : t.rng = s.rng
  dstate  : t.dstate = .awaitingOperand
  bit7    : t.status.getLsbD 7 = s.status.getLsbD 7
  bit3    : t.status.getLsbD 3 = s.status.getLsbD 3
  linkErr : ∀ n, (receiveOperand len s).2 = .ok n → statusLinkErr t.status = statusLinkErr s.status

/-- A reply from the state an operand wait left, or from one that differs from it in the stores, the Key Index, the
free choices and the calls alone. -/
theorem operandFrame_of_answered {len : Nat} {s w t : State}
    (hw : w = { (receiveOperand len s).1 with
      keystore := w.keystore, blockstore := w.blockstore, perm := w.perm, sidx := w.sidx, draws := w.draws
      calls := w.calls })
    (h : Answered w t) : OperandFrame len s t := by
  obtain ⟨hk, hd, -⟩ := receiveOperand_spec len s
  have hr := receiveOperand_received len s
  obtain ⟨e, txcrc, reply, -, rfl⟩ := h
  obtain ⟨h7, h3⟩ := withOpErr_reserved w.status e
  have hstatus : w.status = (receiveOperand len s).1.status := (congrArg State.status hw :)
  have hbits : w.status.getLsbD 7 = s.status.getLsbD 7 ∧ w.status.getLsbD 3 = s.status.getLsbD 3 := by
    rcases hr.status with h | ⟨c, h⟩ <;> rw [hstatus, h]
    · exact ⟨rfl, rfl⟩
    · exact withLinkErr_reserved _ _
  refine ⟨(congrArg State.cfg hw).trans hk.cfg, (congrArg State.curop hw).trans hk.curop,
    (congrArg State.rng hw).trans hk.rng, (congrArg State.dstate hw).trans hd, h7.trans hbits.1, h3.trans hbits.2,
    fun n hn => ?_⟩
  rw [statusLinkErr_withOpErr, hstatus, (hr.ok n hn).1]

theorem exec_prime_frame {s t : State} (h : exec .prime s = .next t) :
    OperandFrame 256 s t ∧ t.keystore = s.keystore ∧ t.blockstore = s.blockstore := by
  obtain ⟨hk, -⟩ := receiveOperand_spec 256 s
  rcases exec_prime_answered h with ha | ⟨v, -, ha⟩
  · refine ⟨operandFrame_of_answered rfl ha, ?_⟩
    obtain ⟨e, txcrc, reply, -, rfl⟩ := ha
    exact ⟨hk.keystore, hk.blockstore⟩
  · refine ⟨operandFrame_of_answered rfl ha, ?_⟩
    obtain ⟨e, txcrc, reply, -, rfl⟩ := ha
    exact ⟨hk.keystore, hk.blockstore⟩

theorem exec_get_frame {s t : State} (h : exec .get s = .next t) :
    OperandFrame 2 s t ∧ t.keystore = s.keystore ∧ t.blockstore = s.blockstore ∧ t.perm = s.perm ∧ t.sidx = s.sidx := by
  obtain ⟨hk, -⟩ := receiveOperand_spec 2 s
  have ha := exec_get_answered h
  refine ⟨operandFrame_of_answered rfl ha, ?_⟩
  obtain ⟨e, txcrc, reply, -, rfl⟩ := ha
  exact ⟨hk.keystore, hk.blockstore, hk.perm, hk.sidx⟩

/-- Settles O45, by `exec_prime_frame` and `exec_get_frame`. -/
theorem frameOfPrimeAndGet : Obligations.FrameOfPrimeAndGet := by
  rintro i s t (rfl | rfl) h
  · obtain ⟨hf, hks, hbs⟩ := exec_prime_frame h
    refine ⟨hf.cfg, hf.curop, hf.rng, hf.dstate, nofun, hf.bit7, hf.bit3, ?_,
      fun _ => by rw [hks], fun _ => by rw [hbs]⟩
    rintro len n ⟨⟩
    exact hf.linkErr n
  · obtain ⟨hf, hks, hbs, hperm, hsidx⟩ := exec_get_frame h
    refine ⟨hf.cfg, hf.curop, hf.rng, hf.dstate, fun _ => ⟨hperm, hsidx⟩, hf.bit7, hf.bit3, ?_,
      fun _ => by rw [hks], fun _ => by rw [hbs]⟩
    rintro len n ⟨⟩
    exact hf.linkErr n

/-- Settles O46: the command ends from the state the wait left, or from that after one `KeySet` to the slot the operand
names. -/
theorem frameOfWrite : Obligations.FrameOfWrite := by
  intro s t h
  obtain ⟨hk, -⟩ := receiveOperand_spec 513 s
  rcases exec_write_answered h with ha | ⟨k, r, ha⟩
  · have hf : OperandFrame 513 s t := operandFrame_of_answered rfl ha
    obtain ⟨e, txcrc, reply, -, rfl⟩ := ha
    exact ⟨hf.cfg, hf.curop, hf.rng, hf.dstate, hk.perm, hf.bit7, hf.bit3, hf.linkErr,
      fun _ _ => by rw [← hk.keystore], fun _ => by rw [← hk.blockstore]⟩
  · have hf : OperandFrame 513 s t := operandFrame_of_answered rfl ha
    obtain ⟨e, txcrc, reply, -, rfl⟩ := ha
    refine ⟨hf.cfg, hf.curop, hf.rng, hf.dstate, hk.perm, hf.bit7, hf.bit3, hf.linkErr, fun addr hout => ?_,
      fun _ => by rw [← hk.blockstore]; rfl⟩
    rw [← hk.keystore]
    exact read_keySet_of_outside k r _ hout

/-- Settles O47: the command ends from the state the wait left, or from that after one `BlkSet` of the record the
operand names. -/
theorem frameOfPut : Obligations.FrameOfPut := by
  intro s t h
  obtain ⟨hk, -⟩ := receiveOperand_spec 1026 s
  rcases exec_put_answered h with ha | ⟨-, d, ha⟩
  · have hf : OperandFrame 1026 s t := operandFrame_of_answered rfl ha
    obtain ⟨e, txcrc, reply, -, rfl⟩ := ha
    exact ⟨hf.cfg, hf.curop, hf.rng, hf.dstate, hk.perm, hk.sidx, hf.bit7, hf.bit3, hf.linkErr,
      fun _ => by rw [← hk.keystore], fun _ _ => by rw [← hk.blockstore]⟩
  · have hf : OperandFrame 1026 s t := operandFrame_of_answered rfl ha
    obtain ⟨e, txcrc, reply, -, rfl⟩ := ha
    refine ⟨hf.cfg, hf.curop, hf.rng, hf.dstate, hk.perm, hk.sidx, hf.bit7, hf.bit3, hf.linkErr,
      fun _ => by rw [← hk.keystore]; rfl, fun addr hout => ?_⟩
    rw [← hk.blockstore]
    exact read_blkSet_of_outside d _ hout

/-! ### Commands one after another -/

/-- Settles O48: after the `write` the one slot that holds the key is the slot written. -/
theorem enrolledKeyIsFound : Obligations.EnrolledKeyIsFound := by
  intro s a k r evs rest hl hc hfree
  obtain ⟨t, ht, -, hkey, hresponse, hother, -⟩ := writeEnrollsThePair s a k r evs rest hl hc
  obtain ⟨u, b, hu, hb, hcalls, -⟩ := lookupSendsTheResponse t k ⟨a, hkey⟩
  have hab : b = a := by
    by_contra hne
    exact hfree b hne ((hother b hne).1.symm.trans hb)
  obtain ⟨hcfg, -⟩ := frameOfWrite s t ht
  rw [hab, hresponse, hcfg] at hcalls
  exact ⟨t, u, ht, hu, hcalls⟩

/-- Settles O49: the record `put` stored is the one `get` reads. -/
theorem putRecordIsRead : Obligations.PutRecordIsRead := by
  intro s addr d evs evs' rest ha hl hc hc'
  obtain ⟨t, ht, hlink, -, hlegal, -⟩ := putStoresTheRecord s addr d evs (evs' ++ rest) hl hc
  obtain ⟨hget, -⟩ := hlegal ha
  obtain ⟨hcfg, -⟩ := frameOfPut s t ht
  rw [← hcfg] at hc'
  obtain ⟨u, hu, -, -, hsent, -⟩ := getSendsTheRecord t addr evs' rest hlink hc'
  refine ⟨t, u, ht, hu, ?_⟩
  rw [(hsent ha).2, hget, hcfg]

/-- Settles O50: after `erase` every slot holds the all-zero key and Response. -/
theorem erasedKeysAreNotFound : Obligations.ErasedKeysAreNotFound := by
  intro s k
  obtain ⟨t, ht, hzero, -⟩ := eraseZeroesTheStore s
  obtain ⟨hcfg, -⟩ := frameOfErase s t ht
  by_cases hk : k = zeroKey
  · obtain ⟨u, a, hu, -, hcalls, -⟩ := lookupSendsTheResponse t k ⟨0, (hzero 0).1.trans hk.symm⟩
    rw [(hzero a).2, hcfg] at hcalls
    exact ⟨t, u, ht, hu, fun h => absurd hk h, fun _ => hcalls⟩
  · obtain ⟨u, hu, -, herr, -⟩ := lookupNotFound t k fun a h => hk (h.symm.trans (hzero a).1)
    exact ⟨t, u, ht, hu, fun _ => herr, fun h => absurd h hk⟩

/-- Settles O51: the match set depends on `KEYSTORE` alone, which `prime` leaves (`exec_prime_frame`). -/
theorem primePreservesEnrolledKeys : Obligations.PrimePreservesEnrolledKeys := by
  intro s t h k
  obtain ⟨-, hkeystore, -⟩ := exec_prime_frame h
  rw [matchSet, matchSet, keyAt_congr hkeystore]

end Sys2Proof.Machine
end

section
/-! What one step can do (R140 to R143, R158, R160): a `Receive`, then nothing or one command; and what the two
kinds of pass do. -/

namespace Sys2Proof.Machine

/-! ### The work of a command, before its reply -/

/-- The states a command may work from `s` to, before it replies. -/
inductive Worked (s : State) : State → Prop
  /-- The counters of random bytes and free choices (R150, R115). -/
  | counted (rng draws : Nat) : Worked s { s with rng := rng, draws := draws }
  /-- An operand wait (R146). -/
  | awaited {len : Nat} (h : len ≤ 1026) : Worked s (receiveOperand len s).1
  /-- A vector installed (R119). -/
  | primed {u : State} (hu : Worked s u) {v : Key} (hv : validPerm v = true) :
      Worked s (rebuildIndex { u with perm := v })
  /-- A pair written (R120). -/
  | enrolled {u : State} (hu : Worked s u) (a : Byte) (k r : Key) : Worked s (rebuildIndex (keySet a k r u))
  /-- A record written (R131). -/
  | stored {u : State} (hu : Worked s u) {a : Word} (ha : a.toNat ≤ 31) (d : Record) : Worked s (blkSet a d u)
  /-- The Key Store zeroed (R121). -/
  | erased : Worked s (eraseAll s)

/-- The end of a command: a result code (`Answered`), or the link error cleared by `status`. -/
def Ended (w t : State) : Prop := Answered w t ∨ Replied w t (withLinkErr w.status 0)

/-- Everything a command can do. -/
theorem exec_worked {i : Instr} {s t : State} (h : exec i s = .next t) : ∃ w, Worked s w ∧ Ended w t := by
  cases i with
  | lookup k => exact ⟨_, .counted s.rng (s.draws + 1), .inl (exec_lookup_answered h)⟩
  | prime =>
    rcases exec_prime_answered h with ha | ⟨v, hv, ha⟩
    · exact ⟨_, .awaited (by decide), .inl ha⟩
    · exact ⟨_, .primed (.awaited (by decide)) hv, .inl ha⟩
  | write =>
    rcases exec_write_answered h with ha | ⟨k, r, ha⟩
    · exact ⟨_, .awaited (by decide), .inl ha⟩
    · exact ⟨_, .enrolled (.awaited (by decide)) _ k r, .inl ha⟩
  | erase => exact ⟨_, .erased, .inl (exec_erase_answered h)⟩
  | noise => exact ⟨_, .counted (s.rng + 256) s.draws, .inl (exec_noise_answered h)⟩
  | get => exact ⟨_, .awaited (by decide), .inl (exec_get_answered h)⟩
  | put =>
    rcases exec_put_answered h with ha | ⟨hrange, d, ha⟩
    · exact ⟨_, .awaited (by decide), .inl ha⟩
    · exact ⟨_, .stored (.awaited (by decide)) hrange d, .inl ha⟩
  | status => exact ⟨s, .counted s.rng s.draws, .inr (exec_status_replied h)⟩
  | reserved op => exact ⟨s, .counted s.rng s.draws, .inl (exec_reserved_answered h)⟩

/-- The end of a command as a state: a reply behind the calls, `TXCRC`, and one of the two fields of `STATUS`. -/
theorem ended_cases {w t : State} (h : Ended w t) : ∃ status, Replied w t status ∧
    ((∃ e : OpErr, status = withOpErr w.status e.code) ∨ status = withLinkErr w.status 0) := by
  rcases h with ⟨e, h⟩ | h
  · exact ⟨_, h, .inl ⟨e, rfl⟩⟩
  · exact ⟨_, h, .inr rfl⟩

/-! ### One step -/

/-- Everything a step can do: a `Receive` with no packet or a failed one, and back (R142); or a `Receive` and the
command it brought (R143). -/
theorem step_cases {s t : State} (h : step s = .next t) :
    ∃ u r, receive 256 1 { s with dstate := .awaitingPacket } = (u, r) ∧
      ((r = .noFrame ∨ ∃ c, r = .fail c) ∧ t = returnIdle u ∨
        ∃ n w v, r = .ok n ∧ Worked (enterTransaction n u) w ∧ Ended w v ∧ t = returnIdle v) := by
  unfold step loopPass at h
  split at h
  · next u n hr =>
    refine ⟨u, .ok n, hr, .inr ?_⟩
    obtain ⟨i, hdec⟩ := decode_of_receive_ok hr
    rw [transact_of_decode_ok hdec] at h
    cases he : exec i (enterTransaction n u) with
    | next v =>
      rw [he] at h
      obtain ⟨w, hw, hv⟩ := exec_worked he
      exact ⟨n, w, v, rfl, hw, hv, (Host.Outcome.next.inj h).symm⟩
    | fault r => rw [he] at h; cases h
    | refused r => rw [he] at h; cases h
  · next u c hr => exact ⟨u, .fail c, hr, .inl ⟨.inr ⟨c, rfl⟩, (Host.Outcome.next.inj h).symm⟩⟩
  · next u hr => exact ⟨u, .noFrame, hr, .inl ⟨.inl rfl, (Host.Outcome.next.inj h).symm⟩⟩

/-- Settles O52, by `transact_of_decode_ok`. -/
theorem stepRunsTheDecodedCommand : Obligations.StepRunsTheDecodedCommand := by
  intro s t n i hr hdec
  rw [step, loopPass, hr]
  exact transact_of_decode_ok hdec

theorem firstPacket_length (i : Instr) : Laws.FirstPacket.Statement i := by
  cases i with
  | lookup k => exact Laws.FirstPacket.lookup k
  | prime => exact Laws.FirstPacket.prime
  | write => exact Laws.FirstPacket.write
  | erase => exact Laws.FirstPacket.erase
  | noise => exact Laws.FirstPacket.noise
  | get => exact Laws.FirstPacket.get
  | put => exact Laws.FirstPacket.put
  | status => exact Laws.FirstPacket.status
  | reserved op => exact Laws.FirstPacket.reserved op

/-- Settles O53: the first packet is accepted (`receive_delivered`) and decodes to the command (`decodeOfEncode`). -/
theorem deliveredCommandRuns : Obligations.DeliveredCommandRuns := by
  intro s i evs rest hc hi hl hd h0
  have hlen : (encode s.cfg i).length = 256 ∨ (encode s.cfg i).length = 1 :=
    (firstPacket_length i s.cfg hi).imp_left And.left
  obtain ⟨u, hr, hslice, hlink⟩ := receive_delivered (lenP := 256) (lenA := 1)
    (s := { s with dstate := .awaitingPacket }) (by omega) (by omega) hlen hl hd h0
  obtain ⟨hk, -⟩ := receive_linkOnly 256 1 { s with dstate := .awaitingPacket }
  obtain ⟨hstatus, hcalls⟩ := (receive_received 256 1 { s with dstate := .awaitingPacket }).ok _ (by rw [hr])
  rw [hr] at hk hstatus hcalls
  have hdec : decode u.cfg (rxSlice u 0 (encode s.cfg i).length) = .ok i := by
    rw [hslice, hk.cfg]
    exact decodeOfEncode s.cfg i hc hi
  refine ⟨_, stepRunsTheDecodedCommand s u _ i hr hdec, ?_⟩
  simp only [enterTransaction_link, enterTransaction_cfg, enterTransaction_keystore, enterTransaction_blockstore,
    enterTransaction_perm, enterTransaction_sidx, enterTransaction_status, enterTransaction_rng, enterTransaction_calls]
  exact ⟨hlink, hk.cfg, hk.keystore, hk.blockstore, hk.perm, hk.sidx, hstatus, hk.rng, hcalls⟩

/-- Settles O54: the pass ends at once, so what it changes is what the `Receive` changed. -/
theorem silentReturn : Obligations.SilentReturn := by
  intro s t r hr hsilent
  obtain ⟨hk, -⟩ := receive_linkOnly 256 1 { s with dstate := .awaitingPacket }
  have hrec := receive_received 256 1 { s with dstate := .awaitingPacket }
  rw [hr] at hk hrec
  have hstatus : statusOpErr t.status = statusOpErr s.status := by
    rcases hrec.status with h | ⟨c, h⟩
    · exact congrArg statusOpErr h
    · exact (congrArg statusOpErr h).trans (statusOpErr_withLinkErr _ _)
  have hstep : step s = .next (returnIdle t) := by
    rcases hsilent with rfl | ⟨c, rfl⟩ <;> rw [step, loopPass, hr]
  refine ⟨_, hstep, rfl, hrec.calls, hk.keystore, hk.blockstore, hk.perm, hk.sidx, hk.txcrc, hk.curop, hstatus, ?_⟩
  rintro rfl
  obtain ⟨link, now, rfl⟩ := receive_noFrame hr
  exact ⟨rfl, rfl, rfl⟩

end Sys2Proof.Machine
end

section
/-! What every step keeps (R10, R13, R36, R122, R158): the parameters, the order of the outputs, the invariants of the
block between passes; and that these hold after a reset (R39, R190). -/

namespace Sys2Proof.Machine

/-! ### Parameters, link, clock -/

/-- What only goes forward (R10, R36): the parameters stay, symbols are consumed, the clock does not go back. -/
structure Forward (s t : State) : Prop where
  cfg  : t.cfg = s.cfg
  link : t.link <:+ s.link
  now  : s.now ≤ t.now

theorem Forward.trans {s t u : State} (h : Forward s t) (k : Forward t u) : Forward s u :=
  ⟨k.cfg.trans h.cfg, k.link.trans h.link, h.now.trans k.now⟩

theorem Worked.forward {s w : State} (h : Worked s w) : Forward s w := by
  induction h with
  | counted rng draws => exact ⟨rfl, List.suffix_rfl, le_rfl⟩
  | @awaited len _ =>
    have hr := receiveOperand_received len s
    exact ⟨(receiveOperand_spec len s).1.cfg, hr.link, hr.now⟩
  | primed _ _ ih => exact ⟨ih.cfg, ih.link, ih.now⟩
  | enrolled _ _ _ _ ih => exact ⟨ih.cfg, ih.link, ih.now⟩
  | stored _ _ _ ih => exact ⟨ih.cfg, ih.link, ih.now⟩
  | erased =>
    obtain ⟨m, hm⟩ := eraseAll_eq s
    rw [hm]
    exact ⟨rfl, List.suffix_rfl, le_rfl⟩

theorem Ended.forward {w t : State} (h : Ended w t) : Forward w t := by
  obtain ⟨status, ⟨txcrc, reply, -, rfl⟩, -⟩ := ended_cases h
  exact ⟨rfl, List.suffix_rfl, le_rfl⟩

theorem receive_forward {s u : State} {r : RxResult}
    (h : receive 256 1 { s with dstate := .awaitingPacket } = (u, r)) : Forward s u := by
  obtain ⟨hk, -⟩ := receive_linkOnly 256 1 { s with dstate := .awaitingPacket }
  have hr := receive_received 256 1 { s with dstate := .awaitingPacket }
  rw [h] at hk hr
  exact ⟨hk.cfg, hr.link, hr.now⟩

theorem enterTransaction_forward (n : Nat) (s : State) : Forward s (enterTransaction n s) :=
  ⟨enterTransaction_cfg n s, by rw [enterTransaction_link], by rw [enterTransaction_now]⟩

/-! ### Output calls -/

/-- A call that is no part of a frame. -/
def IsStorageCall (c : Call) : Prop := c = .decClear ∨ (∃ a k r, c = .keySet a k r) ∨ ∃ a d, c = .blkSet a d

/-- From `s` to `w` nothing has been sent. -/
def SentNothing (s w : State) : Prop := ∃ pre, w.calls = s.calls ++ pre ∧ ∀ c ∈ pre, IsStorageCall c

theorem SentNothing.refl (s : State) : SentNothing s s := ⟨[], by simp, by simp⟩

theorem SentNothing.snoc {s u w : State} (h : SentNothing s u) {c : Call} (hw : w.calls = u.calls ++ [c])
    (hc : IsStorageCall c) : SentNothing s w := by
  obtain ⟨pre, hu, hpre⟩ := h
  refine ⟨pre ++ [c], by rw [hw, hu, List.append_assoc], ?_⟩
  simpa [or_imp, forall_and, hc] using hpre

theorem SentNothing.trans {s u w : State} (h : SentNothing s u) (k : SentNothing u w) : SentNothing s w := by
  obtain ⟨pre, hu, hpre⟩ := h
  obtain ⟨pre', hw, hpre'⟩ := k
  exact ⟨pre ++ pre', by rw [hw, hu, List.append_assoc],
    fun c hc => (List.mem_append.mp hc).elim (hpre c) (hpre' c)⟩

theorem Received.sentNothing {s : State} {r : State × RxResult} (h : Received s r) : SentNothing s r.1 := by
  rcases h.calls with hc | hc
  · exact ⟨[], by simp [hc], by simp⟩
  · exact (SentNothing.refl s).snoc hc (.inl rfl)

theorem Worked.sentNothing {s w : State} (h : Worked s w) : SentNothing s w := by
  induction h with
  | counted rng draws => exact ⟨[], by simp, by simp⟩
  | awaited hlen => exact (receiveOperand_received _ s).sentNothing
  | primed _ _ ih => exact ih
  | enrolled _ a k r ih => exact ih.snoc rfl (.inr (.inl ⟨a, k, r, rfl⟩))
  | stored _ _ d ih => exact ih.snoc rfl (.inr (.inr ⟨_, d, rfl⟩))
  | erased =>
    obtain ⟨m, hm⟩ := eraseAll_eq s
    refine ⟨_, by rw [hm]; rfl, fun c hc => ?_⟩
    obtain ⟨a, -, rfl⟩ := List.mem_map.mp hc
    exact .inr (.inl ⟨a, _, _, rfl⟩)

theorem receive_sentNothing {s u : State} {r : RxResult}
    (h : receive 256 1 { s with dstate := .awaitingPacket } = (u, r)) : SentNothing s u := by
  have hr := receive_received 256 1 { s with dstate := .awaitingPacket }
  rw [h] at hr
  exact hr.sentNothing

/-- Settles O56: a pass without a command sends nothing, and a command works before it replies (`step_cases`). -/
theorem replyIsTheLastAction : Obligations.ReplyIsTheLastAction := by
  intro s t h
  obtain ⟨u, r, hr, ⟨-, rfl⟩ | ⟨n, w, v, -, hw, hv, rfl⟩⟩ := step_cases h
  · obtain ⟨pre, hcalls, hpre⟩ := receive_sentNothing hr
    exact ⟨pre, [], by simp [hcalls], hpre, .inl rfl⟩
  · have henter : SentNothing u (enterTransaction n u) := ⟨[], by simp, by simp⟩
    obtain ⟨pre, hcalls, hpre⟩ := ((receive_sentNothing hr).trans henter).trans hw.sentNothing
    have hcfg := (((receive_forward hr).trans (enterTransaction_forward n u)).trans hw.forward).cfg
    obtain ⟨status, ⟨txcrc, reply, hreply, rfl⟩, -⟩ := ended_cases hv
    rw [hcfg] at hreply
    exact ⟨pre, reply, by simp [hcalls], hpre, hreply⟩

/-- Settles O60: the `Receive` and the command go forward, and the calls are those of `replyIsTheLastAction`. -/
theorem stepOnlyGoesForward : Obligations.StepOnlyGoesForward := by
  intro s t h
  obtain ⟨pre, reply, hcalls, -⟩ := replyIsTheLastAction s t h
  have hearlier : s.calls <+: t.calls := ⟨pre ++ reply, by rw [hcalls, List.append_assoc]⟩
  have hf : Forward s t := by
    obtain ⟨u, r, hr, ⟨-, rfl⟩ | ⟨n, w, v, -, hw, hv, rfl⟩⟩ := step_cases h
    · have hu := receive_forward hr
      exact ⟨hu.cfg, hu.link, hu.now⟩
    · have hv := (((receive_forward hr).trans (enterTransaction_forward n u)).trans hw.forward).trans hv.forward
      exact ⟨hv.cfg, hv.link, hv.now⟩
  exact ⟨hf.cfg, hearlier, hf.link, hf.now⟩

/-! ### The invariants of the block -/

theorem statusLegal_withOpErr {s t : State} (h : StatusLegal s) (e : OpErr)
    (ht : t.status = withOpErr s.status e.code) : StatusLegal t := by
  obtain ⟨h7, h3, -, hlink⟩ := h
  obtain ⟨k7, k3⟩ := withOpErr_reserved s.status e
  rw [StatusLegal, ht, k7, k3, statusOpErr_withOpErr, statusLinkErr_withOpErr]
  exact ⟨h7, h3, e.code_le, hlink⟩

theorem statusLegal_withLinkErr {s t : State} (h : StatusLegal s) (c : Cause)
    (ht : t.status = withLinkErr s.status c.code) : StatusLegal t := by
  obtain ⟨h7, h3, hop, -⟩ := h
  obtain ⟨k7, k3⟩ := withLinkErr_reserved s.status c
  rw [StatusLegal, ht, k7, k3, statusLinkErr_withLinkErr, statusOpErr_withLinkErr]
  exact ⟨h7, h3, hop, c.code_le⟩

theorem statusLegal_cleared {s t : State} (h : StatusLegal s) (ht : t.status = withLinkErr s.status 0) :
    StatusLegal t := by
  obtain ⟨h7, h3, hop, -⟩ := h
  obtain ⟨k7, k3⟩ := cleared_reserved s.status
  rw [StatusLegal, ht, k7, k3, statusLinkErr_cleared, statusOpErr_cleared]
  exact ⟨h7, h3, hop, by decide⟩

/-- The invariants of the block inside a pass: `Quiet` but for `DSTATE`. -/
def QuietButDState (s : State) : Prop := Quiet (returnIdle s)

theorem IndexSorted.congr {s t : State} (h : IndexSorted s) (hperm : t.perm = s.perm) (hsidx : t.sidx = s.sidx)
    (hkeys : t.keystore = s.keystore) : IndexSorted t := by
  rw [IndexSorted, hperm, hsidx, keyAt_congr hkeys]
  exact h

theorem quietButDState_of_received {s : State} {r : State × RxResult} (h : QuietButDState s) (hk : LinkOnly s r.1)
    (hr : Received s r) (hcnt : r.1.rxcnt ≤ 1028) : QuietButDState r.1 where
  permValid := by
    rw [PermValid, returnIdle_perm, hk.perm]
    exact h.permValid
  indexSorted := h.indexSorted.congr hk.perm hk.sidx hk.keystore
  statusLegal := by
    rcases hr.status with hs | ⟨c, hs⟩
    · rw [StatusLegal, returnIdle_status, hs]
      exact h.statusLegal
    · exact statusLegal_withLinkErr h.statusLegal c hs
  stores := by
    rw [StoresCanonical, returnIdle_keystore, returnIdle_blockstore, hk.keystore, hk.blockstore]
    exact h.stores
  rxcnt := hcnt
  decLayer := hr.decLayer h.decLayer
  dstate := rfl

theorem rebuildIndex_stores {s : State} (h : StoresCanonical s) : StoresCanonical (rebuildIndex s) := h

theorem eraseAll_stores {s : State} (h : StoresCanonical s) : StoresCanonical (eraseAll s) := by
  rw [eraseAll]
  exact rebuildIndex_stores (eraseLoop_stores h allBytes)

theorem Worked.quiet {s w : State} (h : Worked s w) (hq : QuietButDState s) : QuietButDState w := by
  induction h with
  | counted rng draws => exact ⟨hq.permValid, hq.indexSorted, hq.statusLegal, hq.stores, hq.rxcnt, hq.decLayer, rfl⟩
  | awaited hlen =>
    exact quietButDState_of_received hq (receiveOperand_spec _ s).1 (receiveOperand_received _ s)
      (receiveOperand_rxcnt hlen s)
  | primed _ hv ih =>
    exact ⟨(validPerm_iff_count _).mp hv, rebuildIndex_indexSorted _, ih.statusLegal, ih.stores, ih.rxcnt, ih.decLayer,
      rfl⟩
  | enrolled _ a k r ih =>
    exact ⟨ih.permValid, rebuildIndex_indexSorted _, ih.statusLegal, keySet_stores ih.stores a k r, ih.rxcnt,
      ih.decLayer, rfl⟩
  | stored _ ha d ih =>
    exact ⟨ih.permValid, ih.indexSorted, ih.statusLegal, blkSet_stores ih.stores ha d, ih.rxcnt, ih.decLayer, rfl⟩
  | erased =>
    have hstores := eraseAll_stores (s := s) hq.stores
    obtain ⟨m, hm⟩ := eraseAll_eq s
    rw [hm] at hstores ⊢
    exact ⟨hq.permValid, rebuildIndex_indexSorted _, hq.statusLegal, hstores, hq.rxcnt, hq.decLayer, rfl⟩

theorem Ended.quiet {w t : State} (h : Ended w t) (hq : QuietButDState w) : QuietButDState t := by
  obtain ⟨status, ⟨txcrc, reply, -, rfl⟩, hstatus⟩ := ended_cases h
  refine ⟨hq.permValid, hq.indexSorted, ?_, hq.stores, hq.rxcnt, hq.decLayer, rfl⟩
  rcases hstatus with ⟨e, rfl⟩ | rfl
  · exact statusLegal_withOpErr hq.statusLegal e rfl
  · exact statusLegal_cleared hq.statusLegal rfl

theorem receive_quiet {s u : State} {r : RxResult} (hq : Quiet s)
    (h : receive 256 1 { s with dstate := .awaitingPacket } = (u, r)) : QuietButDState u := by
  have hq' : QuietButDState { s with dstate := .awaitingPacket } :=
    ⟨hq.permValid, hq.indexSorted, hq.statusLegal, hq.stores, hq.rxcnt, hq.decLayer, rfl⟩
  have hu := quietButDState_of_received hq' (receive_linkOnly 256 1 _).1 (receive_received 256 1 _)
    (receive_rxcnt (by decide) (by decide) _)
  rwa [h] at hu

theorem enterTransaction_quiet {n : Nat} {u : State} (h : QuietButDState u) :
    QuietButDState (enterTransaction n u) := by
  unfold enterTransaction
  split <;> exact ⟨h.permValid, h.indexSorted, h.statusLegal, h.stores, h.rxcnt, h.decLayer, rfl⟩

/-- Settles O57: the `Receive`, the work of the command and its end each keep all but `DSTATE`, and the pass ends
`Idle`. -/
theorem stepKeepsQuiet : Obligations.StepKeepsQuiet := by
  intro s t hq h
  obtain ⟨u, r, hr, ⟨-, rfl⟩ | ⟨n, w, v, -, hw, hv, rfl⟩⟩ := step_cases h
  · exact receive_quiet hq hr
  · exact hv.quiet (hw.quiet (enterTransaction_quiet (receive_quiet hq hr)))

/-! ### Reset -/

theorem reset_perm_toList : State.reset.perm.toList = allBytes :=
  List.ext_getElem (by simp [allBytes]) fun i _ _ => by
    simp only [State.reset, allBytes, Vector.getElem_toList, Vector.getElem_ofFn, List.getElem_map, List.getElem_range]

/-- Settles O58: the vector and the index list every byte once, and all keys of a blank store are equal. -/
theorem resetIsQuiet : Obligations.ResetIsQuiet where
  permValid v := by rw [reset_perm_toList, allBytes_count]
  indexSorted := by
    have hsidx : State.reset.sidx = State.reset.perm := rfl
    have hkeys : ∀ a b, keyAt State.reset a = keyAt State.reset b := fun a b => Vector.ext fun i hi => by
      rw [keyAt_getElem, keyAt_getElem]; rfl
    refine ⟨fun a => by rw [hsidx, reset_perm_toList, allBytes_count], List.pairwise_iff_getElem.mpr ?_⟩
    intro i j _ _ _
    rw [hkeys _ (State.reset.sidx.toList[j]), compareKeys_self]
    decide
  statusLegal := ⟨rfl, rfl, by decide, by decide⟩
  stores := reset_stores_canonical
  rxcnt := Nat.zero_le _
  decLayer := rfl
  dstate := rfl

/-- The index depends on the vector, the Key Store and the ranking alone. -/
theorem sortedIndex_congr {s t : State} (hperm : s.perm = t.perm) (hkeys : s.keystore = t.keystore)
    (rank : Nat → Nat) : sortedIndex s rank = sortedIndex t rank := by
  apply Vector.toList_inj.mp
  rw [sortedIndex_toList, sortedIndex_toList, sortedSlots, sortedSlots, entries, entries, hperm, keyAt_congr hkeys]

/-- Settles O59: `resetBlock` sets each register outright, and `SIDX` is the one sorted under the identity. -/
theorem resetSequence : Obligations.ResetSequence := by
  intro s
  refine ⟨fun k hk => ?_, fun v => ?_, ?_, rfl, rfl, rfl, rfl, resetBlock_keystore s, resetBlock_blockstore s,
    resetBlock_calls s, fun s' => ⟨rfl, rfl, rfl, rfl, fun hkeys hdraws => ?_⟩⟩
  · simp [State.reset]
  · rw [resetBlock_perm, reset_perm_toList, allBytes_count]
  · exact indexSorted_of_sidx_eq (resetBlock_sidx s) rfl (resetBlock_keystore s)
  · rw [resetBlock_sidx, resetBlock_sidx, hdraws]
    refine sortedIndex_congr ?_ ?_ _
    · rfl
    · exact hkeys

end Sys2Proof.Machine
end
